-- ==== Sys2Proof/Word.lean ====
section
/-! DEFINITION. The words of LSBSTEG: bytes, 64-bit lengths and magics, the 128-bit header register, and the group of
four channel bytes (spec 00_scope R8, R12; 10_state R21). -/

namespace Sys2Proof

/-- A channel byte, payload byte, message byte or command byte (BYTE_W = CMD_W = 8, R8). -/
abbrev Byte := BitVec 8

/-- A 64-bit unsigned value: a length register or a magic value (BUFLEN_W = LEN_W = 64, R8). -/
abbrev Word := BitVec 64

/-- The value of register HDR (128 bits, R21), also as wide as the widest register. -/
abbrev HdrWord := BitVec 128

/-- A 2-bit field group: four consecutive channel bytes, lane 0 at the lowest address (30_encoding R91). -/
structure Group where
  c0 : Byte
  c1 : Byte
  c2 : Byte
  c3 : Byte
deriving DecidableEq, Repr

/-- The bytes of a group, lowest address first. -/
def Group.bytes (g : Group) : List Byte := [g.c0, g.c1, g.c2, g.c3]

end Sys2Proof
end

