-- ==== Sys2Proof/Config.lean ====
section
/-! DEFINITION. The constants of the hardware (spec 00_scope R8, R9), and the values the model names where the spec
gives none (notes/assumptions/1, 2, 3, 7). -/

namespace Sys2Proof

/-- FIELD_W: payload bits carried by one channel byte (R8). -/
abbrev Config.fieldW : Nat := 2

/-- FIELD_POS: bit offset of the field inside a channel byte (R8). -/
abbrev Config.fieldPos : Nat := 0

/-- GROUP_N: channel bytes per payload byte (R8). -/
abbrev Config.groupN : Nat := 4

/-- MAGIC_BYTES: size of the magic field of the header (R8). -/
abbrev Config.magicBytes : Nat := 8

/-- LEN_BYTES: size of the message_length field of the header (R8). -/
abbrev Config.lenBytes : Nat := 8

/-- HEADER_SIZE: 8 magic and 8 length bytes (R8). -/
abbrev Config.headerSize : Nat := 16

/-- MAGIC, the hardwired marker (R8, R24). UNVERIFIED: the spec calls the literal unaudited (93 U8, log 8). -/
def Config.magic : Word := 0xF3D37B0C676EDCA6

/-- What an address no entry lists reads as: no value, for the spec says that an unwritten byte has none (10_state R41).
DESIGN CHOICE among the two the spec allows, safe (log 2). -/
def Config.unlisted : Option Byte := none

/-- The reset value of every 8-bit register the spec leaves unspecified (R41 forbids zero). DESIGN CHOICE, unsafe (log 1). -/
def Config.resetByte : Byte := 1

/-- The reset value of every 64-bit register the spec leaves unspecified. DESIGN CHOICE, unsafe (log 1). -/
def Config.resetWord : Word := 1

/-- The reset value of HDR. DESIGN CHOICE, unsafe (log 1). -/
def Config.resetHdr : HdrWord := 1

/-- The reset value of CMD, no operation's byte. DESIGN CHOICE, unsafe (log 3). -/
def Config.resetCmd : Byte := 0

/-- The largest physical capacity R8 allows a space; the capacities after reset. DESIGN CHOICE (log 7). -/
def Config.maxCapacity : Nat := 2 ^ 64 - 1

end Sys2Proof
end

