-- ==== Sys2Proof/Syntax.lean ====
section
/-! DEFINITION. The ten operations (spec 00_scope R2, 30_encoding R83), one constructor per row of the opcode table. -/

namespace Sys2Proof

/-- An operation of the core. The one immediate is `ofs`, the field CMD[6:4] (30_encoding R81); every other operand is a
register or space that the operation names itself (R82). -/
inductive Instr where
  /-- FEXT2 ofs: extract a 2-bit field of PB into FV (R112). -/
  | fext2 (ofs : BitVec 3)
  /-- FINS2 ofs: insert FV[1:0] as a 2-bit field of PB (R113). -/
  | fins2 (ofs : BitVec 3)
  /-- GDEC: decode one channel group (R122). -/
  | gdec
  /-- GENC: encode one payload byte into a channel group (R123). -/
  | genc
  /-- SRD: read the whole stream out of the channel buffer (R132). -/
  | srd
  /-- SWR: write a stream into the channel buffer (R133). -/
  | swr
  /-- HSER: serialize a header (R142). -/
  | hser
  /-- HPAR: parse a header (R143). -/
  | hpar
  /-- EMBED: pack a message into the channel buffer (R152). -/
  | embed
  /-- EXTRACT: unpack and validate a message (R153). -/
  | extract
deriving DecidableEq, Repr

end Sys2Proof
end

