-- ==== Sys2Proof/WellFormed.lean ====
section
/-! DEFINITION. Which operations have legal operands (spec 30_encoding R81: `offset + width <= 8` makes ofs = 7 illegal). -/

namespace Sys2Proof

/-- The precondition `offset + width <= 8` of the field accessors at width 2 (40_bitfield R110, R111, R114). -/
abbrev OfsLegal (ofs : BitVec 3) : Prop := ofs.toNat + Config.fieldW ≤ 8

/-- An operation whose immediate is legal. The decoder also yields the ill-formed FEXT2 7 and FINS2 7: their meaning is
to raise BAD_OPERAND (R84, R112, R113, R176). -/
def Instr.wf : Instr → Bool
  | .fext2 ofs => decide (OfsLegal ofs)
  | .fins2 ofs => decide (OfsLegal ofs)
  | .gdec => true
  | .genc => true
  | .srd => true
  | .swr => true
  | .hser => true
  | .hpar => true
  | .embed => true
  | .extract => true

end Sys2Proof
end

