-- ==== Sys2Proof/Decode.lean ====
section
/-! DEFINITION. The command byte: decoding, total on all 256 bytes and refusing by name, and encoding (spec 30_encoding
R80, R81, R83, R84). -/

namespace Sys2Proof

/-- Why a command byte is no operation; each is reported as ILLEGAL_OP (R84, 60_exceptions R176). -/
inductive DecodeError where
  /-- Bit 7, field Z, is set. -/
  | zSet
  /-- OP is 0x0 or 0xB to 0xF. -/
  | reservedOp
  /-- Format N with OFS not 000. -/
  | ofsNotZero
deriving DecidableEq, Repr

/-- Field OP, bits [3:0] (R80). -/
def cmdOp (c : Byte) : BitVec 4 := c.extractLsb' 0 4

/-- Field OFS, bits [6:4] (R80, R81). -/
def cmdOfs (c : Byte) : BitVec 3 := c.extractLsb' 4 3

/-- Field Z, bit [7] (R80). -/
def cmdZ (c : Byte) : Bool := c.getLsbD 7

/-- Format N: OFS must be 000 (R80, R84). -/
def formatN (i : Instr) (ofs : BitVec 3) : Except DecodeError Instr :=
  if ofs = 0 then .ok i else .error .ofsNotZero

/-- R84: Z first, then the reserved codes, then OFS of format N. OFS = 7 of FEXT2 and FINS2 is left to the operation,
which checks its operand (R176 item 2; DEDUCED, log 12). -/
def decode (c : Byte) : Except DecodeError Instr :=
  if cmdZ c then .error .zSet
  else
    match (cmdOp c).toNat with
    | 0x1 => .ok (.fext2 (cmdOfs c))
    | 0x2 => .ok (.fins2 (cmdOfs c))
    | 0x3 => formatN .gdec (cmdOfs c)
    | 0x4 => formatN .genc (cmdOfs c)
    | 0x5 => formatN .srd (cmdOfs c)
    | 0x6 => formatN .swr (cmdOfs c)
    | 0x7 => formatN .hser (cmdOfs c)
    | 0x8 => formatN .hpar (cmdOfs c)
    | 0x9 => formatN .embed (cmdOfs c)
    | 0xA => formatN .extract (cmdOfs c)
    | _ => .error .reservedOp

/-- The instruction in the `nbits` table bits of `w`: a command is one byte, the first (R80, R85). -/
def decodeTableWord (nbits w : Nat) : Option Instr :=
  match decode (BitVec.ofNat 8 (w % 2 ^ nbits)) with
  | .ok i => some i
  | .error _ => none

/-- Format F: the operation code with OFS in bits [6:4] (R80). -/
def formatF (op : Byte) (ofs : BitVec 3) : Byte := op ||| (ofs.setWidth 8 <<< 4)

/-- The command byte of an operation, from the opcode map (R83). -/
def encode : Instr → Byte
  | .fext2 ofs => formatF 0x01 ofs
  | .fins2 ofs => formatF 0x02 ofs
  | .gdec => 0x03
  | .genc => 0x04
  | .srd => 0x05
  | .swr => 0x06
  | .hser => 0x07
  | .hpar => 0x08
  | .embed => 0x09
  | .extract => 0x0A

end Sys2Proof
end

