-- ==== Sys2Proof/Machine/State.lean ====
section
/-! DEFINITION. The state of LSBSTEG as plain data (spec 10_state R20 to R36), the two ways a step can stop, and reset
(10_state R40 to R42). -/

namespace Sys2Proof.Machine

/-- The three byte-addressed spaces (R30): channel buffer, message, stream. -/
inductive Space where
  | cb
  | mb
  | sb
deriving DecidableEq, Repr

/-- The fourteen registers by name (R21, R22). -/
inductive Reg where
  | cmd
  | status
  | pb
  | fv
  | ch0
  | ch1
  | ch2
  | ch3
  | bufLen
  | msgLen
  | strLen
  | hmagic
  | magic
  | hdr
deriving DecidableEq, Repr

/-- One action of the host, between operations (30_encoding R86, 70_reset R207, R221). -/
inductive HostAction where
  /-- `WR register, value`: the bus carries `v`, of which the register keeps its low bits (R23). A write of CMD starts an
  operation. -/
  | wr (r : Reg) (v : HdrWord)
  /-- `RD register`. -/
  | rd (r : Reg)
  /-- `FILL space, address, bytes`. -/
  | fill (sp : Space) (a : Nat) (bs : List Byte)
  /-- `DUMP space, address, n`. -/
  | dump (sp : Space) (a n : Nat)
  /-- The reset (70_reset R200, R201, R207). -/
  | reset
deriving DecidableEq, Repr

/-- What a host read handed to the host. -/
inductive HostDatum where
  /-- A register's value, zero-extended. -/
  | reg (r : Reg) (v : HdrWord)
  /-- Bytes of a space, lowest address first. -/
  | bytes (sp : Space) (a : Nat) (bs : List Byte)
deriving DecidableEq, Repr

/-- One space's written bytes, addresses strictly rising (`Mem.wf`); an address not listed reads as `Config.unlisted`. -/
abbrev Mem := List Host.Cell

/-- What stops the machine with a fault. -/
inductive Fault where
  /-- Less memory behind a space than the host says. Raised by SRD, SWR, EMBED and EXTRACT when a length register is larger
  than CB_MAX, MB_MAX or SB_MAX allows, and by FILL and DUMP when they reach that address: the host has broken the duty of
  70_reset R206, for which the spec gives no move. Safe. -/
  | beyondMemory (sp : Space)
deriving DecidableEq, Repr

/-- What the model gives no meaning to. -/
inductive Refusal where
  /-- An instruction that has no meaning yet; no arm of exec answers it now. Safe. -/
  | notModelled (mnemonic : String)
  /-- A read of a byte that nothing has written since reset. Raised by SRD, SWR, EMBED, EXTRACT and DUMP: the spec gives such
  a byte no value and refuses the operation (10_state R41). Safe. -/
  | unwrittenByte (sp : Space)
  /-- A host read of the write-only register CMD, which the spec refuses (10_state R21, 93 U16). Raised by RD. Safe. -/
  | readOfCmd
deriving DecidableEq, Repr

/-- Everything the spec gives the machine: the registers of R21 (MAGIC is a constant and no state, R24), the three
spaces of R30, the three open capacities of 00_scope R8; and the host agent's two lists, which are the model's own. -/
structure State where
  /-- Register 0, CMD: the last command byte written, sampled by the operation it starts (R21). -/
  cmd : Byte
  /-- Register 1, STATUS: the outcome code (R27). -/
  status : Byte
  /-- Register 2, PB: a payload byte. -/
  pb : Byte
  /-- Register 3, FV: a field value (R25). -/
  fv : Byte
  /-- Register 4, CH0: channel byte of lane 0. -/
  ch0 : Byte
  /-- Register 5, CH1: channel byte of lane 1. -/
  ch1 : Byte
  /-- Register 6, CH2: channel byte of lane 2. -/
  ch2 : Byte
  /-- Register 7, CH3: channel byte of lane 3. -/
  ch3 : Byte
  /-- Register 8, BUF_LEN: the number of bytes of CB. -/
  bufLen : Word
  /-- Register 9, MSG_LEN: the message length, given or parsed. -/
  msgLen : Word
  /-- Register 10, STR_LEN: the number of bytes of SB. -/
  strLen : Word
  /-- Register 11, HMAGIC: the magic value HPAR parsed. -/
  hmagic : Word
  /-- Register 13, HDR: a serialized header, HDR[i] in bits [8i+7:8i]. -/
  hdr : HdrWord
  /-- Space CB, the channel buffer. -/
  cb : Mem
  /-- Space MB, the message. -/
  mb : Mem
  /-- Space SB, the stream. -/
  sb : Mem
  /-- CB_MAX, the physical capacity of CB: an OPEN parameter (00_scope R8), which no step changes. -/
  cbMax : Nat
  /-- MB_MAX. -/
  mbMax : Nat
  /-- SB_MAX. -/
  sbMax : Nat
  /-- The host's actions still to come (70_reset R221). DESIGN CHOICE, the model's own field (log 4). -/
  script : List HostAction
  /-- What the host has read, newest first. DESIGN CHOICE, the model's own field (log 5). -/
  seen : List HostDatum
deriving DecidableEq, Repr

/-- After reset (R40, R41): STATUS is IDLE, no operation is in progress, no byte is written. The other values are the
model's (log 1, 3, 7). -/
def State.reset : State :=
  { cmd := Config.resetCmd, status := 0x00,
    pb := Config.resetByte, fv := Config.resetByte,
    ch0 := Config.resetByte, ch1 := Config.resetByte, ch2 := Config.resetByte, ch3 := Config.resetByte,
    bufLen := Config.resetWord, msgLen := Config.resetWord, strLen := Config.resetWord,
    hmagic := Config.resetWord, hdr := Config.resetHdr,
    cb := [], mb := [], sb := [],
    cbMax := Config.maxCapacity, mbMax := Config.maxCapacity, sbMax := Config.maxCapacity,
    script := [], seen := [] }

end Sys2Proof.Machine
end

