-- ==== Sys2Proof/Machine/Flags.lean ====
section
/-! DEFINITION. The outcome codes of STATUS, the machine's only status value (spec 10_state R27, 60_exceptions R171). -/

namespace Sys2Proof.Machine

/-- The outcomes an operation can end in, and IDLE, which only reset gives (R171). -/
inductive Code where
  | idle
  | ok
  | capacityError
  | notEncoded
  | formatError
  | illegalOp
  | badOperand
deriving DecidableEq, Repr

/-- The numbers of the codes (R171). -/
def Code.byte : Code → Byte
  | .idle => 0x00
  | .ok => 0x01
  | .capacityError => 0x02
  | .notEncoded => 0x03
  | .formatError => 0x04
  | .illegalOp => 0x05
  | .badOperand => 0x06

/-- STATUS never holds 0x07 to 0xFF (R171). -/
abbrev statusLegal (b : Byte) : Prop := b.toNat ≤ 6

end Sys2Proof.Machine
end

