-- ==== Sys2Proof/Machine/Ops.lean ====
section
/-! DEFINITION. The named operations over memory, registers and STATUS that every meaning uses: one home for each
register, one read and one write of the spaces, and the one way an operation ends (spec 00_scope R14, R15; 20_memory R50;
60_exceptions R170, R180). -/

namespace Sys2Proof.Machine

/-- A computation of the machine that may stop. -/
abbrev Result (α : Type) := Host.Outcome α Fault Refusal

/-- Run `f` on what `r` answers; a stop stays a stop. -/
def andThen {α β : Type} (r : Result α) (f : α → Result β) : Result β :=
  match r with
  | .next a => f a
  | .fault e => .fault e
  | .refused e => .refused e

/-! ### The bytes of one space -/

/-- The canonical form: addresses strictly rise, so equal contents are equal lists. No entry can equal what an unlisted
address reads as, which is no value. -/
def Mem.wf : Mem → Bool
  | [] => true
  | [_] => true
  | c :: d :: m => decide (c.1 < d.1) && Mem.wf (d :: m)

/-- The byte at one address (20_memory R50). -/
def Mem.read : Mem → Nat → Option Byte
  | [], _ => Config.unlisted
  | c :: m, a => if c.1 = a then some c.2 else Mem.read m a

/-- The `n` bytes from `a` up, lowest address first; none if one of them has no value (R14, R50). -/
def Mem.readBytes (m : Mem) (a : Nat) : Nat → Option (List Byte)
  | 0 => some []
  | n + 1 =>
    match Mem.read m a with
    | none => none
    | some b => (Mem.readBytes m (a + 1) n).map (b :: ·)

/-- The entries for a byte sequence laid out from `a` up: element i at address a + i (R50). -/
def Mem.cells (a : Nat) : List Byte → Mem
  | [] => []
  | b :: bs => (a, b) :: Mem.cells (a + 1) bs

/-- Write a byte sequence from `a` up, in canonical form: what lies below, the new bytes, what lies above (R14, R50). -/
def Mem.writeBytes (m : Mem) (a : Nat) (bs : List Byte) : Mem :=
  m.filter (fun c => decide (c.1 < a)) ++ Mem.cells a bs ++ m.filter (fun c => decide (a + bs.length ≤ c.1))

/-! ### The state's parts -/

/-- The contents of a space (10_state R30). -/
def State.mem (s : State) : Space → Mem
  | .cb => s.cb
  | .mb => s.mb
  | .sb => s.sb

/-- CB_MAX, MB_MAX, SB_MAX (00_scope R8). -/
def State.capOf (s : State) : Space → Nat
  | .cb => s.cbMax
  | .mb => s.mbMax
  | .sb => s.sbMax

/-- Give a space new contents. -/
def State.setMem (s : State) : Space → Mem → State
  | .cb, m => { s with cb := m }
  | .mb, m => { s with mb := m }
  | .sb, m => { s with sb := m }

/-- Write CMD. -/
def State.setCmd (s : State) (v : Byte) : State := { s with cmd := v }

/-- Write STATUS. -/
def State.setStatus (s : State) (v : Byte) : State := { s with status := v }

/-- Write PB. -/
def State.setPb (s : State) (v : Byte) : State := { s with pb := v }

/-- Write FV. -/
def State.setFv (s : State) (v : Byte) : State := { s with fv := v }

/-- The group in registers CH0 to CH3. -/
def State.group (s : State) : Group := ⟨s.ch0, s.ch1, s.ch2, s.ch3⟩

/-- Write CH0 to CH3. -/
def State.setGroup (s : State) (g : Group) : State := { s with ch0 := g.c0, ch1 := g.c1, ch2 := g.c2, ch3 := g.c3 }

/-- Write BUF_LEN. -/
def State.setBufLen (s : State) (v : Word) : State := { s with bufLen := v }

/-- Write MSG_LEN. -/
def State.setMsgLen (s : State) (v : Word) : State := { s with msgLen := v }

/-- Write STR_LEN. -/
def State.setStrLen (s : State) (v : Word) : State := { s with strLen := v }

/-- Write HMAGIC. -/
def State.setHmagic (s : State) (v : Word) : State := { s with hmagic := v }

/-- Write HDR. -/
def State.setHdr (s : State) (v : HdrWord) : State := { s with hdr := v }

/-- Give the host another list of actions to come. -/
def State.setScript (s : State) (l : List HostAction) : State := { s with script := l }

/-- Hand the host one more datum. -/
def State.note (s : State) (d : HostDatum) : State := { s with seen := d :: s.seen }

/-! ### Access to a space -/

/-- The `n` bytes from `a` up have memory behind them (10_state R32); an empty access touches nothing. -/
def inMemory (s : State) (sp : Space) (a n : Nat) : Bool := n == 0 || decide (a + n ≤ s.capOf sp)

/-- `MemRead(SP, a, n)` (R14). -/
def memRead (s : State) (sp : Space) (a n : Nat) : Result (List Byte) :=
  if inMemory s sp a n then
    match (s.mem sp).readBytes a n with
    | some bs => .next bs
    | none => .refused (.unwrittenByte sp)
  else .fault (.beyondMemory sp)

/-- `MemWrite(SP, a, |bs|, bs)` (R14). -/
def memWrite (s : State) (sp : Space) (a : Nat) (bs : List Byte) : Result State :=
  if inMemory s sp a bs.length then .next (s.setMem sp ((s.mem sp).writeBytes a bs))
  else .fault (.beyondMemory sp)

/-- The host's duty that the lengths are true (70_reset R206): the operation `r` has a move only if the memory behind a space
holds the `n` bytes that its length registers say, touched or not. -/
def needRoom {α : Type} (s : State) (sp : Space) (n : Nat) (r : Result α) : Result α :=
  if n ≤ s.capOf sp then r else .fault (.beyondMemory sp)

/-! ### The end of an operation -/

/-- `done`: STATUS becomes OK after the operation's writes (R15). -/
def done (s : State) : Result State := .next (s.setStatus Code.ok.byte)

/-- `raise E`, the machine's only exception: STATUS becomes the code and the operation is over; nothing is saved, no mode
changes, control goes nowhere (R15, R170, R180). There is no return from it (R181). -/
def raise (c : Code) (s : State) : Result State := .next (s.setStatus c.byte)

end Sys2Proof.Machine
end

