-- ==== Sys2Proof/Machine/Operands.lean ====
section
/-! DEFINITION. The operand forms: the register file as the host sees it (spec 10_state R21 to R24), the buffer capacity
and the two address forms (45_common_semantics R160, R165), and the byte order of wide values (00_scope R16, 10_state
R21). -/

namespace Sys2Proof.Machine

/-! ### Byte order -/

/-- The natural number a byte sequence spells, least significant byte first: the sum of h[i] * 2^(8i) (R16). -/
def natOfBytes : List Byte → Nat
  | [] => 0
  | b :: h => b.toNat + 256 * natOfBytes h

/-- `LE64(v)`: element i is `(v >> 8i) & 0xFF` for i = 0 to 7 (R16). -/
def le64 (v : Word) : List Byte := (List.range 8).map fun i => (v >>> (8 * i)).setWidth 8

/-- `ULE64(h)` of an 8-byte sequence (R16). -/
def ule64 (h : List Byte) : Word := BitVec.ofNat 64 (natOfBytes h)

/-- HDR[0] to HDR[15]: HDR[i] is bits [8i+7:8i] of the register (10_state R21). -/
def hdrBytes (v : HdrWord) : List Byte := (List.range 16).map fun i => v.extractLsb' (8 * i) 8

/-- The register value whose sixteen bytes these are (10_state R21). -/
def hdrOfBytes (h : List Byte) : HdrWord := BitVec.ofNat 128 (natOfBytes h)

/-! ### Addresses and lengths -/

/-- The capacity in payload bytes, floor(BUF_LEN / 4) (R160). -/
def capacity (s : State) : Nat := s.bufLen.toNat / Config.groupN

/-- The group form of address: the group of payload byte k starts at CB address 4k (R165, 20_memory R55). -/
def groupAddr (k : Nat) : Nat := Config.groupN * k

/-- EMBED and EXTRACT's `16 + L`, an exact sum (R160). -/
def streamLen (l : Word) : Nat := Config.headerSize + l.toNat

/-! ### The register file -/

/-- What the host may do with a register (R21). -/
inductive Access where
  | writeOnly
  | readOnly
  | readWrite
deriving DecidableEq, Repr

/-- The number of a register (R21, R22). -/
def Reg.number : Reg → Nat
  | .cmd => 0
  | .status => 1
  | .pb => 2
  | .fv => 3
  | .ch0 => 4
  | .ch1 => 5
  | .ch2 => 6
  | .ch3 => 7
  | .bufLen => 8
  | .msgLen => 9
  | .strLen => 10
  | .hmagic => 11
  | .magic => 12
  | .hdr => 13

/-- The register a number names (R22: a register is addressed by its name or number). -/
def Reg.ofNumber : Nat → Option Reg
  | 0 => some .cmd
  | 1 => some .status
  | 2 => some .pb
  | 3 => some .fv
  | 4 => some .ch0
  | 5 => some .ch1
  | 6 => some .ch2
  | 7 => some .ch3
  | 8 => some .bufLen
  | 9 => some .msgLen
  | 10 => some .strLen
  | 11 => some .hmagic
  | 12 => some .magic
  | 13 => some .hdr
  | _ => none

/-- The width of a register in bits (R21). -/
def Reg.width : Reg → Nat
  | .cmd => 8
  | .status => 8
  | .pb => 8
  | .fv => 8
  | .ch0 => 8
  | .ch1 => 8
  | .ch2 => 8
  | .ch3 => 8
  | .bufLen => 64
  | .msgLen => 64
  | .strLen => 64
  | .hmagic => 64
  | .magic => 64
  | .hdr => 128

/-- The host column of R21. -/
def Reg.access : Reg → Access
  | .cmd => .writeOnly
  | .status => .readOnly
  | .pb => .readWrite
  | .fv => .readWrite
  | .ch0 => .readWrite
  | .ch1 => .readWrite
  | .ch2 => .readWrite
  | .ch3 => .readWrite
  | .bufLen => .readWrite
  | .msgLen => .readWrite
  | .strLen => .readWrite
  | .hmagic => .readOnly
  | .magic => .readOnly
  | .hdr => .readWrite

/-- The value a register holds, zero-extended to the bus: MAGIC is hardwired (R24). -/
def regValue (s : State) : Reg → HdrWord
  | .cmd => s.cmd.setWidth 128
  | .status => s.status.setWidth 128
  | .pb => s.pb.setWidth 128
  | .fv => s.fv.setWidth 128
  | .ch0 => s.ch0.setWidth 128
  | .ch1 => s.ch1.setWidth 128
  | .ch2 => s.ch2.setWidth 128
  | .ch3 => s.ch3.setWidth 128
  | .bufLen => s.bufLen.setWidth 128
  | .msgLen => s.msgLen.setWidth 128
  | .strLen => s.strLen.setWidth 128
  | .hmagic => s.hmagic.setWidth 128
  | .magic => Config.magic.setWidth 128
  | .hdr => s.hdr

/-- One atomic assignment of a register by the host (R22): it keeps the low bits of what the bus carries (R23 for the 8-bit
registers; DESIGN CHOICE for the 64-bit ones, log 6), and a read-only register keeps its value (R23). -/
def regAssign (s : State) (v : HdrWord) : Reg → State
  | .cmd => s.setCmd (v.setWidth 8)
  | .status => s
  | .pb => s.setPb (v.setWidth 8)
  | .fv => s.setFv (v.setWidth 8)
  | .ch0 => s.setGroup { s.group with c0 := v.setWidth 8 }
  | .ch1 => s.setGroup { s.group with c1 := v.setWidth 8 }
  | .ch2 => s.setGroup { s.group with c2 := v.setWidth 8 }
  | .ch3 => s.setGroup { s.group with c3 := v.setWidth 8 }
  | .bufLen => s.setBufLen (v.setWidth 64)
  | .msgLen => s.setMsgLen (v.setWidth 64)
  | .strLen => s.setStrLen (v.setWidth 64)
  | .hmagic => s
  | .magic => s
  | .hdr => s.setHdr v

end Sys2Proof.Machine
end

