-- ==== Sys2Proof/Machine/HeaderCodec.lean ====
section
/-! DEFINITION. The header codec, HSER and HPAR (spec 43_header_codec R140 to R143). -/

namespace Sys2Proof.Machine

/-- `SerializeHeader(L)`: magic, then length, each least significant byte first (R140, 30_encoding R92). -/
def serializeHeader (l : Word) : List Byte := le64 Config.magic ++ le64 l

/-- `ParseHeader(h)` of a 16-byte sequence: the pair (magic, length), nothing validated (R141). -/
def parseHeader (h : List Byte) : Word × Word :=
  (ule64 (h.take Config.magicBytes), ule64 ((h.drop Config.magicBytes).take Config.lenBytes))

/-- HSER (R142). -/
def execHser (s : State) : Result State := done (s.setHdr (hdrOfBytes (serializeHeader s.msgLen)))

/-- HPAR (R143). -/
def execHpar (s : State) : Result State :=
  let h := parseHeader (hdrBytes s.hdr)
  done ((s.setHmagic h.1).setMsgLen h.2)

end Sys2Proof.Machine
end

