-- ==== Sys2Proof/Machine/BitField.lean ====
section
/-! DEFINITION. The 2-bit field extractor and inserter, FEXT2 and FINS2 (spec 40_bitfield R110 to R114). -/

namespace Sys2Proof.Machine

/-- `(1 << w) - 1` as a byte (R110, R111). -/
def fieldMask (w : Nat) : Byte := (1#8 <<< w) - 1#8

/-- `ExtractField(b, o, w)`; it has no value outside `o + w <= 8` (R110, 93 U5). -/
def extractField (b : Byte) (o w : Nat) (_h : o + w ≤ 8 := by decide) : Byte := (b >>> o) &&& fieldMask w

/-- `InsertField(b, o, w, v)`; it has no value outside `o + w <= 8` (R111, 93 U5). -/
def insertField (b : Byte) (o w : Nat) (v : Byte) (_h : o + w ≤ 8 := by decide) : Byte :=
  (b &&& ~~~(fieldMask w <<< o)) ||| ((v &&& fieldMask w) <<< o)

/-- FEXT2 ofs (R112). -/
def execFext2 (ofs : BitVec 3) (s : State) : Result State :=
  if h : OfsLegal ofs then done (s.setFv (extractField s.pb ofs.toNat Config.fieldW h))
  else raise .badOperand s

/-- FINS2 ofs (R113). -/
def execFins2 (ofs : BitVec 3) (s : State) : Result State :=
  if h : OfsLegal ofs then done (s.setPb (insertField s.pb ofs.toNat Config.fieldW s.fv h))
  else raise .badOperand s

end Sys2Proof.Machine
end

