-- ==== Sys2Proof/Machine/GroupCodec.lean ====
section
/-! DEFINITION. The frame serializer and deserializer, GDEC and GENC (spec 41_group_codec R120 to R123). -/

namespace Sys2Proof.Machine

/-- The slice a channel byte carries, its low 2 bits (30_encoding R90). -/
def lowField (c : Byte) : Byte := extractField c Config.fieldPos Config.fieldW

/-- A channel byte with slice `v` in its low 2 bits, the high 6 bits kept (30_encoding R90, R121). -/
def withLowField (c v : Byte) : Byte := insertField c Config.fieldPos Config.fieldW v

/-- `DecodeGroup`: lane i gives result bits [2i+1:2i] (R120, 20_memory R52). -/
def decodeGroup (g : Group) : Byte :=
  lowField g.c0 ||| (lowField g.c1 <<< 2) ||| (lowField g.c2 <<< 4) ||| (lowField g.c3 <<< 6)

/-- `EncodeGroup`: lane i takes payload bits [2i+1:2i] (R121). -/
def encodeGroup (p : Byte) (g : Group) : Group :=
  { c0 := withLowField g.c0 (extractField p 0 2),
    c1 := withLowField g.c1 (extractField p 2 2),
    c2 := withLowField g.c2 (extractField p 4 2),
    c3 := withLowField g.c3 (extractField p 6 2) }

/-- GDEC (R122). -/
def execGdec (s : State) : Result State := done (s.setPb (decodeGroup s.group))

/-- GENC (R123). -/
def execGenc (s : State) : Result State := done (s.setGroup (encodeGroup s.pb s.group))

end Sys2Proof.Machine
end

