-- ==== Sys2Proof/Machine/StreamCodec.lean ====
section
/-! DEFINITION. The buffer-level stream codec, SRD and SWR (spec 42_stream_codec R130 to R133). -/

namespace Sys2Proof.Machine

/-- `ReadStream(B)`: one payload byte for each whole group, the last `N mod 4` bytes unused (R130). -/
def readStream : List Byte → List Byte
  | c0 :: c1 :: c2 :: c3 :: B => decodeGroup ⟨c0, c1, c2, c3⟩ :: readStream B
  | _ => []

/-- `WriteStream(B, S)`: payload byte k goes into group k, the rest of `B` is kept; it has no value when `4n > N` (R131,
93 U6). -/
def writeStream : List Byte → List Byte → Option (List Byte)
  | B, [] => some B
  | c0 :: c1 :: c2 :: c3 :: B, p :: S => (writeStream B S).map ((encodeGroup p ⟨c0, c1, c2, c3⟩).bytes ++ ·)
  | _, _ :: _ => none

/-- SRD (R132), on memories as long as 70_reset R206 asks. -/
def execSrd (s : State) : Result State :=
  needRoom s .cb s.bufLen.toNat <| needRoom s .sb (capacity s) <|
    andThen (memRead s .cb 0 (groupAddr (capacity s))) fun B =>
      andThen (memWrite s .sb 0 (readStream B)) fun t => done (t.setStrLen (BitVec.ofNat 64 (capacity s)))

/-- SWR (R133): the precondition of `WriteStream` is checked exactly, before any access and whatever the memories hold (70_reset
R212); past it they are as long as R206 asks. -/
def execSwr (s : State) : Result State :=
  if s.bufLen.toNat < groupAddr s.strLen.toNat then raise .badOperand s
  else
    needRoom s .cb s.bufLen.toNat <| needRoom s .sb s.strLen.toNat <|
      andThen (memRead s .sb 0 s.strLen.toNat) fun S =>
        andThen (memRead s .cb 0 (groupAddr s.strLen.toNat)) fun B =>
          match writeStream B S with
          | some B' => andThen (memWrite s .cb 0 B') done
          | none => raise .badOperand s

end Sys2Proof.Machine
end

