-- ==== Sys2Proof/Machine/EmbedExtract.lean ====
section
/-! DEFINITION. The encoder and the decoder, EMBED and EXTRACT (spec 44_embed_extract R150 to R153). -/

namespace Sys2Proof.Machine

/-- `Embed(B, M)`: the new channel buffer, or none for CapacityError (R150). `M` is shorter than 2^64. -/
def embed (B M : List Byte) : Option (List Byte) :=
  if B.length / Config.groupN < Config.headerSize + M.length then none
  else writeStream B (serializeHeader (BitVec.ofNat 64 M.length) ++ M)

/-- The tests of a parsed header against the capacity `a`, in the order of R151 and R176: the failure, if any. -/
def headerVerdict (a : Nat) (m l : Word) : Option Code :=
  if m ≠ Config.magic then some .notEncoded
  else if a < streamLen l then some .formatError
  else none

/-- `Extract(B)`: the message, or the failure (R151). -/
def extract (B : List Byte) : Except Code (List Byte) :=
  let S := readStream B
  if S.length < Config.headerSize then .error .notEncoded
  else
    let h := parseHeader (S.take Config.headerSize)
    match headerVerdict S.length h.1 h.2 with
    | some e => .error e
    | none => .ok ((S.drop Config.headerSize).take h.2.toNat)

/-- EMBED (R152): of CB it reads and writes the first `4*(16+L)` bytes, the rest of `Embed`'s result being CB itself. The
capacity check comes first, whatever the memories hold (70_reset R212); past it they are as long as R206 asks. -/
def execEmbed (s : State) : Result State :=
  if capacity s < streamLen s.msgLen then raise .capacityError s
  else
    needRoom s .cb s.bufLen.toNat <| needRoom s .mb s.msgLen.toNat <|
      andThen (memRead s .cb 0 (groupAddr (streamLen s.msgLen))) fun B =>
        andThen (memRead s .mb 0 s.msgLen.toNat) fun M =>
          match embed B M with
          | some B' => andThen (memWrite s .cb 0 B') done
          | none => raise .capacityError s

/-- EXTRACT (R153): `Extract` of CB[0..N), reading the header's groups and then the message's alone, which 20_memory R59
calls indistinguishable from reading the whole capacity (DEDUCED, log 9). With no room for a header it reads no byte, so that
it is NOT_ENCODED over unwritten bytes too (DESIGN CHOICE, log 17). The memories are as long as 70_reset R206 asks: MB
for the largest message EXTRACT can return, whatever it does return. -/
def execExtract (s : State) : Result State :=
  needRoom s .cb s.bufLen.toNat <| needRoom s .mb (capacity s - Config.headerSize) <|
    if capacity s < Config.headerSize then raise .notEncoded s
    else
      andThen (memRead s .cb 0 (groupAddr Config.headerSize)) fun H =>
        let h := parseHeader (readStream H)
        match headerVerdict (capacity s) h.1 h.2 with
        | some e => raise e s
        | none =>
          andThen (memRead s .cb (groupAddr Config.headerSize) (groupAddr h.2.toNat)) fun B =>
            andThen (memWrite s .mb 0 (readStream B)) fun t => done (t.setMsgLen h.2)

end Sys2Proof.Machine
end

