-- ==== Sys2Proof/Machine/Dispatch.lean ====
section
/-! DEFINITION. One arm per operation (spec 30_encoding R83). -/

namespace Sys2Proof.Machine

def exec (i : Instr) (s : State) : Host.Outcome State Fault Refusal :=
  match i with
  | .fext2 ofs => Sys2Proof.Machine.execFext2 ofs s
  | .fins2 ofs => Sys2Proof.Machine.execFins2 ofs s
  | .gdec => Sys2Proof.Machine.execGdec s
  | .genc => Sys2Proof.Machine.execGenc s
  | .srd => Sys2Proof.Machine.execSrd s
  | .swr => Sys2Proof.Machine.execSwr s
  | .hser => Sys2Proof.Machine.execHser s
  | .hpar => Sys2Proof.Machine.execHpar s
  | .embed => Sys2Proof.Machine.execEmbed s
  | .extract => Sys2Proof.Machine.execExtract s

end Sys2Proof.Machine
end

