-- ==== Sys2Proof/Machine/HostPort.lean ====
section
/-! DEFINITION. What the host does to the machine between operations: register and memory accesses, the command write,
reset (spec 10_state R21 to R24, R40 to R42; 20_memory R65, R68; 30_encoding R86; 70_reset R200, R207, R221). -/

namespace Sys2Proof.Machine

/-- Run the command byte in CMD: decode it (30_encoding R84) and execute, or raise ILLEGAL_OP (60_exceptions R176). -/
def runCommand (s : State) : Result State :=
  match decode s.cmd with
  | .ok i => exec i s
  | .error _ => raise .illegalOp s

/-- `WR register, value`: an assignment of the register; a write of CMD starts the operation it samples (10_state R21,
20_memory R68). -/
def hostWrite (r : Reg) (v : HdrWord) (s : State) : Result State :=
  match r with
  | .cmd => runCommand (regAssign s v .cmd)
  | r => .next (regAssign s v r)

/-- `RD register`: no side effect on the machine (20_memory R59); CMD is write only and refused (10_state R21, log 10). -/
def hostRead (r : Reg) (s : State) : Result State :=
  match r.access with
  | .writeOnly => .refused .readOfCmd
  | .readOnly => .next (s.note (.reg r (regValue s r)))
  | .readWrite => .next (s.note (.reg r (regValue s r)))

/-- `FILL space, address, bytes`. -/
def hostFill (sp : Space) (a : Nat) (bs : List Byte) (s : State) : Result State := memWrite s sp a bs

/-- `DUMP space, address, n`. -/
def hostDump (sp : Space) (a n : Nat) (s : State) : Result State :=
  andThen (memRead s sp a n) fun bs => .next (s.note (.bytes sp a bs))

/-- Reset between operations (70_reset R200, R201): all of the core's state is as after reset; the host agent and the
capacities of the memories are not the core's to reset (log 11). -/
def hostReset (s : State) : Result State :=
  .next { State.reset with
    cbMax := s.cbMax, mbMax := s.mbMax, sbMax := s.sbMax, script := s.script, seen := s.seen }

/-- One action of the host. -/
def hostAct (h : HostAction) (s : State) : Result State :=
  match h with
  | .wr r v => hostWrite r v s
  | .rd r => hostRead r s
  | .fill sp a bs => hostFill sp a bs s
  | .dump sp a n => hostDump sp a n s
  | .reset => hostReset s

/-- One step: the host's next action is taken from the script and happens; with none, the core idles (60_exceptions
R195, 70_reset R221). -/
def hostStep (s : State) : Result State :=
  match s.script with
  | [] => .next s
  | h :: rest => hostAct h (s.setScript rest)

end Sys2Proof.Machine
end

