-- ==== Sys2Proof/Machine/Step.lean ====
section
/-! DEFINITION. One step of the machine: one action of the host, and the whole operation it starts if it writes CMD
(spec 00_scope R11, 70_reset R221). -/

namespace Sys2Proof.Machine

/-- One step (R11). -/
def step (s : State) : Host.Outcome State Fault Refusal := hostStep s

/-- `s` with the write of the command byte `w` to CMD as the host's next action, the only fetch there is (00_scope R18). -/
def State.withFetchWord (s : State) (nbits w : Nat) : State :=
  s.setScript (.wr .cmd (BitVec.ofNat 128 (w % 2 ^ nbits)) :: s.script)

end Sys2Proof.Machine
end

