-- ==== Sys2Proof/Safety.lean ====
section
/-! DEFINITION. What the claims call a sound state, and the host's duties before a command (spec 70_reset R205, R206). -/

namespace Sys2Proof.Machine

/-- Every written byte has memory behind it (10_state R32). -/
def Mem.below (cap : Nat) (m : Mem) : Bool := m.all fun c => decide (c.1 < cap)

/-- The memory of one space is in canonical form and inside its capacity, itself at most 2^64 - 1 (00_scope R8). -/
abbrev State.SpaceInv (s : State) (sp : Space) : Prop :=
  (s.mem sp).wf = true ∧ Mem.below (s.capOf sp) (s.mem sp) = true ∧ s.capOf sp ≤ Config.maxCapacity

/-- The invariant of the machine: STATUS holds a code of 60_exceptions R171, and the three spaces are sound. -/
abbrev State.Inv (s : State) : Prop :=
  statusLegal s.status ∧ s.SpaceInv .cb ∧ s.SpaceInv .mb ∧ s.SpaceInv .sb

/-- The host has set up the `n` bytes of a space from address 0 up: each has memory behind it and a value (R205, R206). -/
abbrev HasBytes (s : State) (sp : Space) (n : Nat) : Prop :=
  ∀ j, j < n → j < s.capOf sp ∧ ((s.mem sp).read j).isSome = true

/-- The memory behind a space holds at least `n` bytes (R206). -/
abbrev HasRoom (s : State) (sp : Space) (n : Nat) : Prop := n ≤ s.capOf sp

/-- What the host must have set up before a command (R205, R206). Registers need no premise: each holds a value. When the
outcome is a failure raised before any memory is read, no byte need have been set. -/
abbrev HostReady (i : Instr) (s : State) : Prop :=
  match i with
  | .fext2 _ => True
  | .fins2 _ => True
  | .gdec => True
  | .genc => True
  | .srd => HasRoom s .cb s.bufLen.toNat ∧ HasBytes s .cb (groupAddr (capacity s)) ∧ HasRoom s .sb (capacity s)
  | .swr => groupAddr s.strLen.toNat ≤ s.bufLen.toNat →
      HasRoom s .cb s.bufLen.toNat ∧ HasBytes s .sb s.strLen.toNat ∧ HasBytes s .cb (groupAddr s.strLen.toNat)
  | .hser => True
  | .hpar => True
  | .embed => streamLen s.msgLen ≤ capacity s →
      HasRoom s .cb s.bufLen.toNat ∧ HasBytes s .mb s.msgLen.toNat ∧ HasBytes s .cb (groupAddr (streamLen s.msgLen))
  | .extract => HasRoom s .cb s.bufLen.toNat ∧ HasBytes s .cb (groupAddr (capacity s)) ∧ HasRoom s .mb (capacity s - Config.headerSize)

end Sys2Proof.Machine
end

