-- ==== Sys2Proof/Certificates/Slice0/Obligations.lean ====
section
/-! DEFINITION. The statements about LSBSTEG, from the numbered rules of the spec; and the spec's formulas they are
written in, given here a second time, apart from the functions the meanings use. -/

namespace Sys2Proof.Machine

/-- Slice i of a payload byte, `(p >> 2i) & 3` (00_scope glossary, R121). -/
def sliceOf (p : Byte) (i : Nat) : Byte := (p >>> (2 * i)) &&& 3#8

/-- A channel byte carrying slice i of `p`: `(c & 0xFC) | ((p >> 2i) & 3)` (R121). -/
def carrying (c p : Byte) (i : Nat) : Byte := (c &&& 0xFC#8) ||| sliceOf p i

/-- `c0[1:0] | (c1[1:0] << 2) | (c2[1:0] << 4) | (c3[1:0] << 6)` (30_encoding R91). -/
def groupValue (c0 c1 c2 c3 : Byte) : Byte :=
  (c0 &&& 3#8) ||| ((c1 &&& 3#8) <<< 2) ||| ((c2 &&& 3#8) <<< 4) ||| ((c3 &&& 3#8) <<< 6)

/-- Stream byte k of a channel buffer: what the group at 4k to 4k+3 carries, if its four bytes have values (R94, R130). -/
def streamAt (m : Mem) (k : Nat) : Option Byte :=
  match m.read (4 * k), m.read (4 * k + 1), m.read (4 * k + 2), m.read (4 * k + 3) with
  | some c0, some c1, some c2, some c3 => some (groupValue c0 c1 c2 c3)
  | _, _, _, _ => none

/-- Payload stream byte k of EMBED: the magic, the length, each least significant byte first, then the message (R60, R93). -/
def payloadAt (s : State) (k : Nat) : Option Byte :=
  if k < 8 then some ((Config.magic >>> (8 * k)).setWidth 8)
  else if k < 16 then some ((s.msgLen >>> (8 * (k - 8))).setWidth 8)
  else s.mb.read (k - 16)

/-- What becomes of a command byte (R84): 0 it runs an operation, 1 BAD_OPERAND for its OFS, 2 ILLEGAL_OP. -/
def commandClass (c : Byte) : Nat :=
  match decode c with
  | .ok i => if i.wf then 0 else 1
  | .error _ => 2

/-- The read set of an operation (10_state R36) is the same in two states, and so are the capacities of the memories. -/
def ReadsAlike (i : Instr) (s u : State) : Prop :=
  (∀ sp, s.capOf sp = u.capOf sp) ∧
  match i with
  | .fext2 _ => s.pb = u.pb
  | .fins2 _ => s.pb = u.pb ∧ s.fv = u.fv
  | .gdec => s.group = u.group
  | .genc => s.pb = u.pb ∧ s.group = u.group
  | .srd => s.bufLen = u.bufLen ∧ s.cb = u.cb
  | .swr => s.bufLen = u.bufLen ∧ s.strLen = u.strLen ∧ s.cb = u.cb ∧ s.sb = u.sb
  | .hser => s.msgLen = u.msgLen
  | .hpar => s.hdr = u.hdr
  | .embed => s.bufLen = u.bufLen ∧ s.msgLen = u.msgLen ∧ s.cb = u.cb ∧ s.mb = u.mb
  | .extract => s.bufLen = u.bufLen ∧ s.cb = u.cb

/-- The write set of an operation (10_state R36) is the same in two states after it. -/
def WroteAlike (i : Instr) (t v : State) : Prop :=
  t.status = v.status ∧
  match i with
  | .fext2 _ => t.status = 0x01#8 → t.fv = v.fv
  | .fins2 _ => t.pb = v.pb
  | .gdec => t.pb = v.pb
  | .genc => t.group = v.group
  | .srd => t.strLen = v.strLen ∧ ∀ a, a < t.strLen.toNat → t.sb.read a = v.sb.read a
  | .swr => t.cb = v.cb
  | .hser => t.hdr = v.hdr
  | .hpar => t.hmagic = v.hmagic ∧ t.msgLen = v.msgLen
  | .embed => t.cb = v.cb
  | .extract => t.status = 0x01#8 → t.msgLen = v.msgLen ∧ ∀ a, a < t.msgLen.toNat → t.mb.read a = v.mb.read a

end Sys2Proof.Machine

open Sys2Proof Sys2Proof.Machine

/-! ### The command byte -/

/-- R83, R84: decoding an encoded operation, at every value of every operand, gives it back; and in every state the step that
finds its byte as the host's next command runs exactly it (`withFetchWord` is the model's, log 4, log 15). -/
def Obligations.DecodeOfEncode : Prop :=
  ∀ i : Instr, decode (encode i) = .ok i ∧
    ∀ s : State, step (s.withFetchWord 8 (encode i).toNat) = exec i { s with cmd := encode i }

/-- R83, R84: a byte that decodes is the encoding of what it decodes to: no two bytes are one operation. -/
def Obligations.EncodeOfDecode : Prop := ∀ (c : Byte) (i : Instr), decode c = .ok i → encode i = c

/-- R83: "a command c selects the row when c & mask = match". -/
def Obligations.OpcodeMapSelectsRow : Prop :=
  ∀ c : Byte,
    (c &&& 0x8F#8 = 0x01#8 ↔ decode c = .ok (.fext2 (c.extractLsb' 4 3))) ∧
    (c &&& 0x8F#8 = 0x02#8 ↔ decode c = .ok (.fins2 (c.extractLsb' 4 3))) ∧
    (c &&& 0xFF#8 = 0x03#8 ↔ decode c = .ok .gdec) ∧ (c &&& 0xFF#8 = 0x04#8 ↔ decode c = .ok .genc) ∧
    (c &&& 0xFF#8 = 0x05#8 ↔ decode c = .ok .srd) ∧ (c &&& 0xFF#8 = 0x06#8 ↔ decode c = .ok .swr) ∧
    (c &&& 0xFF#8 = 0x07#8 ↔ decode c = .ok .hser) ∧ (c &&& 0xFF#8 = 0x08#8 ↔ decode c = .ok .hpar) ∧
    (c &&& 0xFF#8 = 0x09#8 ↔ decode c = .ok .embed) ∧ (c &&& 0xFF#8 = 0x0A#8 ↔ decode c = .ok .extract)

/-- R86, R84, 95 V2, V12, V70 to V77: command bytes written out from the spec decode to what they stand for. -/
def Obligations.WrittenOutBytesDecode : Prop :=
  decode 0b00100001#8 = .ok (.fext2 2) ∧ decode 0b01100010#8 = .ok (.fins2 6) ∧ decode 0b00000011#8 = .ok .gdec ∧
  decode 0b00000101#8 = .ok .srd ∧ decode 0b00000111#8 = .ok .hser ∧ decode 0b00001001#8 = .ok .embed ∧
  decode 0b00001010#8 = .ok .extract ∧ decode 0x00#8 = .error .reservedOp ∧ decode 0x7B#8 = .error .reservedOp ∧
  decode 0xF1#8 = .error .zSet ∧ decode 0x19#8 = .error .ofsNotZero

/-- R11, R68, R195: when the byte written to CMD decodes to an operation, the step is that operation, on the state with the
action taken from the host's script and the byte in CMD; with no host action to come the core idles. The script is the
model's own field (log 4). -/
def Obligations.StepRunsDecodedInstruction : Prop :=
  (∀ (s : State) (v : HdrWord) (rest : List HostAction) (i : Instr),
    s.script = .wr .cmd v :: rest → decode (v.setWidth 8) = .ok i →
    step s = exec i { s with script := rest, cmd := v.setWidth 8 }) ∧
  ∀ s : State, s.script = [] → step s = .next s

/-- R84: the tests of a command byte in their order, what each raises, that nothing but STATUS changes, and how many of the
256 bytes run an operation, raise BAD_OPERAND, and raise ILLEGAL_OP. That the byte is a host action of `script` and stays in
CMD is the model's way to hold it (log 3, log 4). -/
def Obligations.CommandDecodingInOrder : Prop :=
  (∀ (s : State) (v : HdrWord) (rest : List HostAction), s.script = .wr .cmd v :: rest →
    let c : Byte := v.setWidth 8
    let op := c.toNat % 16
    let ofs := c.toNat / 16 % 8
    let u : State := { s with script := rest, cmd := c }
    if 128 ≤ c.toNat then step s = .next { u with status := 0x05#8 }
    else if op = 0 ∨ 0xB ≤ op then step s = .next { u with status := 0x05#8 }
    else if 3 ≤ op ∧ ofs ≠ 0 then step s = .next { u with status := 0x05#8 }
    else if op ≤ 2 ∧ ofs = 7 then step s = .next { u with status := 0x06#8 }
    else ∃ i, decode c = .ok i ∧ i.wf = true ∧ step s = exec i u) ∧
  (List.range 256).countP (fun n => commandClass (BitVec.ofNat 8 n) == 0) = 22 ∧
  (List.range 256).countP (fun n => commandClass (BitVec.ofNat 8 n) == 1) = 2 ∧
  (List.range 256).countP (fun n => commandClass (BitVec.ofNat 8 n) == 2) = 232

/-! ### FEXT2, FINS2 -/

/-- R110: ExtractField is the bit field, as a number below 2^w. -/
def Obligations.ExtractFieldIsTheField : Prop :=
  ∀ (b : Byte) (o w : Nat) (h : o + w ≤ 8),
    (extractField b o w h).toNat = (b.toNat >>> o) &&& ((1 <<< w) - 1) ∧ (extractField b o w h).toNat < 2 ^ w ∧
    (1 ≤ w → (extractField b o w h).toNat = (b.extractLsb (o + w - 1) o).toNat) ∧
    (w = 0 → extractField b o w h = 0)

/-- R111, R12: InsertField is the formula over natural numbers; bit by bit, it puts the low w bits of v at offset o and keeps
every other bit. -/
def Obligations.InsertFieldPutsTheField : Prop :=
  ∀ (b v : Byte) (o w : Nat) (h : o + w ≤ 8),
    (insertField b o w v h).toNat =
      (b.toNat &&& (0xFF - (((1 <<< w) - 1) <<< o))) ||| ((v.toNat &&& ((1 <<< w) - 1)) <<< o) ∧
    ∀ i, i < 8 →
      (insertField b o w v h).getLsbD i = if o ≤ i ∧ i < o + w then v.getLsbD (i - o) else b.getLsbD i

/-- R115: the five laws of the accessors. -/
def Obligations.FieldAccessorLaws : Prop :=
  (∀ (b v : Byte) (o w : Nat) (h : o + w ≤ 8),
    extractField (insertField b o w v h) o w h = v &&& ((1#8 <<< w) - 1#8) ∧
    (∀ i, i < 8 → (i < o ∨ o + w ≤ i) → (insertField b o w v h).getLsbD i = b.getLsbD i) ∧
    insertField b o w (extractField b o w h) h = b) ∧
  (∀ (b v1 v2 : Byte) (o w : Nat) (h : o + w ≤ 8),
    insertField (insertField b o w v1 h) o w v2 h = insertField b o w v2 h) ∧
  (∀ (b v1 v2 : Byte) (o1 w1 o2 w2 : Nat) (h1 : o1 + w1 ≤ 8) (h2 : o2 + w2 ≤ 8), o1 + w1 ≤ o2 →
    insertField (insertField b o1 w1 v1 h1) o2 w2 v2 h2 = insertField (insertField b o2 w2 v2 h2) o1 w1 v1 h1)

/-- R112: FEXT2. -/
def Obligations.Fext2ExtractsTheField : Prop :=
  ∀ (s : State) (ofs : BitVec 3),
    decode (0x01#8 ||| (ofs.setWidth 8 <<< 4)) = .ok (.fext2 ofs) ∧
    (ofs ≠ 7 → exec (.fext2 ofs) s = .next { s with fv := (s.pb >>> ofs.toNat) &&& 3#8, status := 0x01#8 }) ∧
    (ofs = 7 → exec (.fext2 ofs) s = .next { s with status := 0x06#8 })

/-- R113: FINS2. -/
def Obligations.Fins2InsertsTheField : Prop :=
  ∀ (s : State) (ofs : BitVec 3),
    decode (0x02#8 ||| (ofs.setWidth 8 <<< 4)) = .ok (.fins2 ofs) ∧
    (ofs ≠ 7 → exec (.fins2 ofs) s =
      .next { s with
        pb := (s.pb &&& ~~~(3#8 <<< ofs.toNat)) ||| ((s.fv &&& 3#8) <<< ofs.toNat)
        status := 0x01#8 }) ∧
    (ofs = 7 → exec (.fins2 ofs) s = .next { s with status := 0x06#8 })

/-! ### GDEC, GENC -/

/-- R122: GDEC. -/
def Obligations.GdecDecodesTheGroup : Prop :=
  decode 0x03#8 = .ok .gdec ∧
  ∀ s : State, exec .gdec s = .next { s with pb := groupValue s.ch0 s.ch1 s.ch2 s.ch3, status := 0x01#8 }

/-- R123: GENC. -/
def Obligations.GencEncodesTheByte : Prop :=
  decode 0x04#8 = .ok .genc ∧
  ∀ s : State, exec .genc s =
    .next { s with
      ch0 := carrying s.ch0 s.pb 0
      ch1 := carrying s.ch1 s.pb 1
      ch2 := carrying s.ch2 s.pb 2
      ch3 := carrying s.ch3 s.pb 3
      status := 0x01#8 }

/-- R124: the five laws of the group codec. -/
def Obligations.GroupCodecLaws : Prop :=
  ∀ (p q : Byte) (g : Group),
    decodeGroup (encodeGroup p g) = p ∧
    ((encodeGroup p g).c0 >>> 2 = g.c0 >>> 2 ∧ (encodeGroup p g).c1 >>> 2 = g.c1 >>> 2 ∧
      (encodeGroup p g).c2 >>> 2 = g.c2 >>> 2 ∧ (encodeGroup p g).c3 >>> 2 = g.c3 >>> 2) ∧
    encodeGroup (decodeGroup g) g = g ∧
    encodeGroup q (encodeGroup p g) = encodeGroup q g ∧
    decodeGroup g = decodeGroup ⟨g.c0 &&& 3#8, g.c1 &&& 3#8, g.c2 &&& 3#8, g.c3 &&& 3#8⟩

/-! ### SRD, SWR -/

/-- R130: ReadStream. -/
def Obligations.ReadStreamDecodesGroups : Prop :=
  ∀ B : List Byte, (readStream B).length = B.length / 4 ∧
    ∀ (k : Nat) (c0 c1 c2 c3 : Byte),
      B[4 * k]? = some c0 → B[4 * k + 1]? = some c1 → B[4 * k + 2]? = some c2 → B[4 * k + 3]? = some c3 →
      (readStream B)[k]? = some (groupValue c0 c1 c2 c3)

/-- R131: WriteStream. -/
def Obligations.WriteStreamEncodesGroups : Prop :=
  ∀ B S : List Byte,
    (B.length < 4 * S.length → writeStream B S = none) ∧
    (4 * S.length ≤ B.length → ∃ B', writeStream B S = some B' ∧ B'.length = B.length ∧
      (∀ (k i : Nat) (p c : Byte), i < 4 → S[k]? = some p → B[4 * k + i]? = some c →
        B'[4 * k + i]? = some (carrying c p i)) ∧
      (∀ a, 4 * S.length ≤ a → B'[a]? = B[a]?))

/-- R134: the five laws of the stream codec. -/
def Obligations.StreamCodecLaws : Prop :=
  ∀ B S B' : List Byte, writeStream B S = some B' →
    (readStream B').take S.length = S ∧
    (∀ k, S.length ≤ k → k < B.length / 4 → (readStream B')[k]? = (readStream B)[k]?) ∧
    (∀ (a : Nat) (c : Byte), B[a]? = some c → ∃ c', B'[a]? = some c' ∧ c' >>> 2 = c >>> 2) ∧
    (∀ a, 4 * S.length ≤ a → B'[a]? = B[a]?) ∧
    writeStream B (readStream B) = some B ∧
    (readStream B).length = B.length / 4

/-- R132: SRD, when the host has set up what R205 and R206 ask. -/
def Obligations.SrdReadsTheWholeStream : Prop :=
  decode 0x05#8 = .ok .srd ∧
  ∀ s : State, HostReady .srd s →
    ∃ t, exec .srd s = .next t ∧ t.status = 0x01#8 ∧ t.strLen.toNat = s.bufLen.toNat / 4 ∧
      (∀ k, k < s.bufLen.toNat / 4 → t.sb.read k = streamAt s.cb k ∧ (streamAt s.cb k).isSome = true) ∧
      (∀ a, s.bufLen.toNat / 4 ≤ a → t.sb.read a = s.sb.read a) ∧
      t = { s with sb := t.sb, strLen := t.strLen, status := t.status }

/-- R133: SWR. The precondition is tested exactly and before any access; then, when the host has set up what R205 asks, the
stream is in the buffer. -/
def Obligations.SwrWritesTheStream : Prop :=
  decode 0x06#8 = .ok .swr ∧
  ∀ s : State,
    (s.bufLen.toNat < 4 * s.strLen.toNat → exec .swr s = .next { s with status := 0x06#8 }) ∧
    (4 * s.strLen.toNat ≤ s.bufLen.toNat → HostReady .swr s →
      ∃ t, exec .swr s = .next t ∧ t.status = 0x01#8 ∧
        (∀ (k i : Nat) (p c : Byte), k < s.strLen.toNat → i < 4 → s.sb.read k = some p →
          s.cb.read (4 * k + i) = some c → t.cb.read (4 * k + i) = some (carrying c p i)) ∧
        (∀ a, 4 * s.strLen.toNat ≤ a → t.cb.read a = s.cb.read a) ∧
        t = { s with cb := t.cb, status := t.status })

/-- R59, R132: SRD twice on an unchanged CB gives the same state. -/
def Obligations.SrdTwiceIsSrdOnce : Prop :=
  ∀ s t : State, exec .srd s = .next t → exec .srd t = .next t

/-! ### HSER, HPAR -/

/-- R16: LE64 and ULE64, and that each undoes the other. -/
def Obligations.ByteOrderPrimitives : Prop :=
  (∀ v : Word, (le64 v).length = 8 ∧
    (∀ i, i < 8 → ((le64 v)[i]?).map BitVec.toNat = some ((v.toNat >>> (8 * i)) &&& 0xFF)) ∧ ule64 (le64 v) = v) ∧
  (∀ h0 h1 h2 h3 h4 h5 h6 h7 : Byte,
    (ule64 [h0, h1, h2, h3, h4, h5, h6, h7]).toNat =
      h0.toNat + h1.toNat * 2 ^ 8 + h2.toNat * 2 ^ 16 + h3.toNat * 2 ^ 24 + h4.toNat * 2 ^ 32 + h5.toNat * 2 ^ 40 +
        h6.toNat * 2 ^ 48 + h7.toNat * 2 ^ 56 ∧
    le64 (ule64 [h0, h1, h2, h3, h4, h5, h6, h7]) = [h0, h1, h2, h3, h4, h5, h6, h7])

/-- R142: HSER. HDR holds the bytes of the magic, then those of the length; as one number, the length over the magic. -/
def Obligations.HserSerializesTheHeader : Prop :=
  decode 0x07#8 = .ok .hser ∧
  ∀ s : State, ∃ t, exec .hser s = .next t ∧ t = { s with hdr := s.msgLen ++ Config.magic, status := 0x01#8 } ∧
    hdrBytes t.hdr = [0xA6#8, 0xDC#8, 0x6E#8, 0x67#8, 0x0C#8, 0x7B#8, 0xD3#8, 0xF3#8] ++ le64 s.msgLen

/-- R143: HPAR. HDR[0..8) and HDR[8..16), least significant byte first, are the low and the high half of the register. -/
def Obligations.HparParsesTheHeader : Prop :=
  decode 0x08#8 = .ok .hpar ∧
  ∀ s : State,
    exec .hpar s =
      .next { s with hmagic := s.hdr.extractLsb' 0 64, msgLen := s.hdr.extractLsb' 64 64, status := 0x01#8 } ∧
    s.hdr.extractLsb' 0 64 = ule64 ((hdrBytes s.hdr).take 8) ∧
    s.hdr.extractLsb' 64 64 = ule64 ((hdrBytes s.hdr).drop 8)

/-- R141, 43_header_codec: HSER then HPAR gives HMAGIC = MAGIC and restores MSG_LEN, in every state. -/
def Obligations.HserThenHparRestoresLength : Prop :=
  (∀ l : Word, parseHeader (serializeHeader l) = (Config.magic, l)) ∧
  ∀ s : State, ∃ t, exec .hser s = .next t ∧
    exec .hpar t = .next { t with hmagic := 0xF3D37B0C676EDCA6#64, msgLen := s.msgLen }

/-! ### EMBED, EXTRACT -/

/-- R152: EMBED. The capacity test is exact and before any access; then, when the host has set up what R205 asks, stream
byte k is in group k, the high bits are kept, and nothing else changes. -/
def Obligations.EmbedPacksTheMessage : Prop :=
  decode 0x09#8 = .ok .embed ∧
  ∀ s : State,
    (s.bufLen.toNat / 4 < 16 + s.msgLen.toNat → exec .embed s = .next { s with status := 0x02#8 }) ∧
    (16 + s.msgLen.toNat ≤ s.bufLen.toNat / 4 → HostReady .embed s →
      ∃ t, exec .embed s = .next t ∧ t.status = 0x01#8 ∧
        (∀ (k i : Nat) (p c : Byte), k < 16 + s.msgLen.toNat → i < 4 → payloadAt s k = some p →
          s.cb.read (4 * k + i) = some c → t.cb.read (4 * k + i) = some (carrying c p i)) ∧
        (∀ a, 4 * (16 + s.msgLen.toNat) ≤ a → t.cb.read a = s.cb.read a) ∧
        t = { s with cb := t.cb, status := t.status })

/-- R153: EXTRACT. S is the stream the buffer carries; the three failures in their order, each changing STATUS alone, else
the message in MB and its length in MSG_LEN. -/
def Obligations.ExtractUnpacksTheMessage : Prop :=
  decode 0x0A#8 = .ok .extract ∧
  ∀ (s : State) (S : List Byte), HostReady .extract s → S.length = s.bufLen.toNat / 4 →
    (∀ k, k < S.length → streamAt s.cb k = S[k]?) →
    let m := ule64 (S.take 8)
    let l := ule64 ((S.drop 8).take 8)
    if S.length < 16 then exec .extract s = .next { s with status := 0x03#8 }
    else if m ≠ 0xF3D37B0C676EDCA6#64 then exec .extract s = .next { s with status := 0x03#8 }
    else if S.length < 16 + l.toNat then exec .extract s = .next { s with status := 0x04#8 }
    else ∃ t, exec .extract s = .next t ∧ t.status = 0x01#8 ∧ t.msgLen = l ∧
      (∀ j, j < l.toNat → t.mb.read j = S[16 + j]?) ∧ (∀ a, l.toNat ≤ a → t.mb.read a = s.mb.read a) ∧
      t = { s with mb := t.mb, msgLen := t.msgLen, status := t.status }

/-- R152: on a buffer and a message that are all there, EMBED is the pure `Embed` of the whole buffer (R150). -/
def Obligations.EmbedRefinesPureEmbed : Prop :=
  ∀ (s : State) (B M : List Byte), memRead s .cb 0 s.bufLen.toNat = .next B → memRead s .mb 0 s.msgLen.toNat = .next M →
    match embed B M with
    | none => exec .embed s = .next { s with status := 0x02#8 }
    | some B' => ∃ t, exec .embed s = .next t ∧ memRead t .cb 0 s.bufLen.toNat = .next B' ∧
        t = { s with cb := t.cb, status := 0x01#8 }

/-- R153, R59: on a buffer whose groups are all there, EXTRACT, which reads only the groups it needs (log 9), is the pure
`Extract` of the whole buffer (R151), whatever the unused tail of `BUF_LEN mod 4` bytes holds, the
memories being as long as R206 asks. -/
def Obligations.ExtractRefinesPureExtract : Prop :=
  ∀ (s : State) (B tail : List Byte), memRead s .cb 0 (4 * (s.bufLen.toNat / 4)) = .next B →
    tail.length = s.bufLen.toNat % 4 → HasRoom s .cb s.bufLen.toNat → HasRoom s .mb (capacity s - 16) →
    match extract (B ++ tail) with
    | .error e => exec .extract s = .next { s with status := e.byte }
    | .ok M => ∃ t, exec .extract s = .next t ∧ memRead t .mb 0 M.length = .next M ∧ t.msgLen.toNat = M.length ∧
        t = { s with mb := t.mb, msgLen := t.msgLen, status := 0x01#8 }

/-- R154: the round trip of the pure functions. -/
def Obligations.ExtractOfEmbedIsTheMessage : Prop :=
  ∀ B M : List Byte, M.length < 2 ^ 64 → 16 + M.length ≤ B.length / 4 →
    ∃ B', embed B M = some B' ∧ extract B' = .ok M

/-- R154, R152, R153: the round trip of the machine: after an EMBED that ends in OK, whatever the host then puts in MB and
MSG_LEN, EXTRACT brings the message and its length back, when MB has the room of R206. That EXTRACT runs though groups past
the message may be unwritten rests on R59 and log 9. -/
def Obligations.EmbedThenExtractRoundTrip : Prop :=
  ∀ (s t : State) (m : Mem) (l : Word), exec .embed s = .next t → t.status = 0x01#8 → HasRoom s .mb (capacity s - 16) →
    ∃ u, exec .extract { t with mb := m, msgLen := l } = .next u ∧ u.status = 0x01#8 ∧ u.msgLen = s.msgLen ∧
      u.cb = t.cb ∧ ∀ j, j < s.msgLen.toNat → u.mb.read j = s.mb.read j

/-- R155: the capacity boundary. -/
def Obligations.EmbedCapacityBoundary : Prop :=
  ∀ B M : List Byte,
    (embed B M = none ↔ B.length / 4 < 16 + M.length) ∧
    (B.length / 4 = 16 + M.length - 1 → embed B M = none) ∧
    (B.length / 4 = 16 + M.length → ∃ B', embed B M = some B')

/-- R156: the encoder keeps the high 6 bits everywhere and every bit beyond the written region. -/
def Obligations.EmbedIsNonDestructive : Prop :=
  ∀ B M B' : List Byte, embed B M = some B' →
    B'.length = B.length ∧
    (∀ (a : Nat) (c : Byte), B[a]? = some c → ∃ c', B'[a]? = some c' ∧ c' >>> 2 = c >>> 2) ∧
    (∀ a, 4 * (16 + M.length) ≤ a → B'[a]? = B[a]?)

/-- R157: when the pure decoder answers NotEncoded, and that it does on every all-zero and all-0xFF buffer. -/
def Obligations.NotEncodedExactlyWhen : Prop :=
  (∀ B : List Byte, extract B = .error .notEncoded ↔
    (B.length / 4 < 16 ∨ ule64 ((readStream B).take 8) ≠ Config.magic)) ∧
  (∀ n : Nat, extract (List.replicate n 0x00#8) = .error .notEncoded ∧
    extract (List.replicate n 0xFF#8) = .error .notEncoded)

/-- R95: recognition of a valid stream: the three conditions, of which the first that fails decides the outcome. -/
def Obligations.RecognitionOfAValidStream : Prop :=
  ∀ B : List Byte,
    let S := readStream B
    let m := ule64 (S.take 8)
    let l := ule64 ((S.drop 8).take 8)
    ((∃ M, extract B = .ok M) ↔ (16 ≤ S.length ∧ m = Config.magic ∧ 16 + l.toNat ≤ S.length)) ∧
    (S.length < 16 → extract B = .error .notEncoded) ∧
    (16 ≤ S.length → m ≠ Config.magic → extract B = .error .notEncoded) ∧
    (16 ≤ S.length → m = Config.magic → S.length < 16 + l.toNat → extract B = .error .formatError)

/-- R158: EXTRACT does not write CB, and twice on the same buffer it gives the same state. -/
def Obligations.ExtractIsIdempotent : Prop :=
  ∀ s t : State, exec .extract s = .next t → t.cb = s.cb ∧ exec .extract t = .next t

/-- R153, R120: bits [7:2] of the channel bytes do not influence what the decoder returns. -/
def Obligations.HighBitsDoNotInfluenceExtract : Prop :=
  ∀ B B' : List Byte, B.map (· &&& 3#8) = B'.map (· &&& 3#8) → extract B = extract B'

/-- R161: the length tests in 64-bit unsigned arithmetic, with a = floor(N/4): EMBED's, EXTRACT's after its first two tests, of
the pure decoder and of the operation with S the stream the buffer carries, and SWR's. -/
def Obligations.LengthTestsInSixtyFourBits : Prop :=
  (∀ s : State, exec .embed s = .next { s with status := 0x02#8 } ↔
    (s.bufLen >>> 2 < 16#64 ∨ (s.bufLen >>> 2) - 16#64 < s.msgLen)) ∧
  (∀ B : List Byte, B.length < 2 ^ 64 → 16 ≤ (readStream B).length → ule64 ((readStream B).take 8) = Config.magic →
    (extract B = .error .formatError ↔
      BitVec.ofNat 64 (readStream B).length - 16#64 < ule64 (((readStream B).drop 8).take 8))) ∧
  (∀ (s : State) (S : List Byte), HostReady .extract s → S.length = s.bufLen.toNat / 4 →
    (∀ k, k < S.length → streamAt s.cb k = S[k]?) → ¬ s.bufLen >>> 2 < 16#64 → ule64 (S.take 8) = Config.magic →
    (exec .extract s = .next { s with status := 0x04#8 } ↔ (s.bufLen >>> 2) - 16#64 < ule64 ((S.drop 8).take 8))) ∧
  (∀ s : State, exec .swr s = .next { s with status := 0x06#8 } ↔ s.bufLen >>> 2 < s.strLen)

/-- R159, first sentence: what EMBED leaves in CB, HSER, a host copy of HDR and MB into SB, a host write of STR_LEN and SWR
leave there too. -/
def Obligations.EmbedFromLowerOperations : Prop :=
  ∀ (s t : State) (M : List Byte), exec .embed s = .next t → t.status = 0x01#8 →
    memRead s .mb 0 s.msgLen.toNat = .next M → HasRoom s .sb (16 + s.msgLen.toNat) →
    ∃ s1 s2 u, exec .hser s = .next s1 ∧ memWrite s1 .sb 0 (hdrBytes s1.hdr ++ M) = .next s2 ∧
      exec .swr (regAssign s2 (BitVec.ofNat 128 (16 + s.msgLen.toNat)) .strLen) = .next u ∧
      u.status = 0x01#8 ∧ u.cb = t.cb

/-- R159, second sentence: the header EXTRACT judges is the one that SRD, a host copy of SB[0..16) into HDR and HPAR leave in
HMAGIC and MSG_LEN, when SRD leaves STR_LEN at 16 or more. -/
def Obligations.ExtractHeaderFromLowerOperations : Prop :=
  ∀ (s s1 v : State), exec .srd s = .next s1 → 16 ≤ s1.strLen.toNat → exec .extract s = .next v →
    ∃ H u, memRead s1 .sb 0 16 = .next H ∧ exec .hpar (regAssign s1 (hdrOfBytes H) .hdr) = .next u ∧
      (v.status = 0x03#8 ↔ u.hmagic ≠ Config.magic) ∧
      (v.status = 0x04#8 ↔ (u.hmagic = Config.magic ∧ s1.strLen.toNat < 16 + u.msgLen.toNat)) ∧
      (v.status = 0x01#8 → u.hmagic = Config.magic ∧ u.msgLen = v.msgLen)

/-! ### What holds of every operation -/

/-- R205, R206: when the host has set up what an operation reads, and the memory it writes is there, the operation answers. -/
def Obligations.ReadyOperationsComplete : Prop :=
  ∀ (i : Instr) (s : State), HostReady i s → ∃ t, exec i s = .next t

/-- R41, R206: an operation that reads a byte nothing has written is refused, and one whose length registers are larger than
the memory behind a space has no move. A failure that EMBED or SWR raises before any access comes first (R212). The names of
the two stops are the model's (log 2, log 7); which of two missing bytes or memories is named is the model's order (log 13);
that EXTRACT reads the header's groups and the message's alone is log 9. -/
def Obligations.AbsentBytesStopTheOperation : Prop :=
  (∀ s : State,
    (s.cbMax < s.bufLen.toNat → exec .srd s = .fault (.beyondMemory .cb)) ∧
    (s.bufLen.toNat ≤ s.cbMax → s.sbMax < s.bufLen.toNat / 4 → exec .srd s = .fault (.beyondMemory .sb)) ∧
    (s.bufLen.toNat ≤ s.cbMax → s.bufLen.toNat / 4 ≤ s.sbMax →
      ∀ j, j < 4 * (s.bufLen.toNat / 4) → s.cb.read j = none → exec .srd s = .refused (.unwrittenByte .cb))) ∧
  (∀ s : State, 4 * s.strLen.toNat ≤ s.bufLen.toNat →
    (s.cbMax < s.bufLen.toNat → exec .swr s = .fault (.beyondMemory .cb)) ∧
    (s.bufLen.toNat ≤ s.cbMax → s.sbMax < s.strLen.toNat → exec .swr s = .fault (.beyondMemory .sb)) ∧
    (s.bufLen.toNat ≤ s.cbMax → s.strLen.toNat ≤ s.sbMax →
      (∀ j, j < s.strLen.toNat → s.sb.read j = none → exec .swr s = .refused (.unwrittenByte .sb)) ∧
      ((∀ j, j < s.strLen.toNat → (s.sb.read j).isSome = true) →
        ∀ j, j < 4 * s.strLen.toNat → s.cb.read j = none → exec .swr s = .refused (.unwrittenByte .cb)))) ∧
  (∀ s : State, 16 + s.msgLen.toNat ≤ s.bufLen.toNat / 4 →
    (s.cbMax < s.bufLen.toNat → exec .embed s = .fault (.beyondMemory .cb)) ∧
    (s.bufLen.toNat ≤ s.cbMax → s.mbMax < s.msgLen.toNat → exec .embed s = .fault (.beyondMemory .mb)) ∧
    (s.bufLen.toNat ≤ s.cbMax → s.msgLen.toNat ≤ s.mbMax →
      (∀ j, j < 4 * (16 + s.msgLen.toNat) → s.cb.read j = none → exec .embed s = .refused (.unwrittenByte .cb)) ∧
      ((∀ j, j < 4 * (16 + s.msgLen.toNat) → (s.cb.read j).isSome = true) →
        ∀ j, j < s.msgLen.toNat → s.mb.read j = none → exec .embed s = .refused (.unwrittenByte .mb)))) ∧
  (∀ s : State,
    (s.cbMax < s.bufLen.toNat → exec .extract s = .fault (.beyondMemory .cb)) ∧
    (s.bufLen.toNat ≤ s.cbMax → s.mbMax < s.bufLen.toNat / 4 - 16 → exec .extract s = .fault (.beyondMemory .mb)) ∧
    (s.bufLen.toNat ≤ s.cbMax → s.bufLen.toNat / 4 - 16 ≤ s.mbMax → 16 ≤ s.bufLen.toNat / 4 →
      (∀ j, j < 64 → s.cb.read j = none → exec .extract s = .refused (.unwrittenByte .cb)) ∧
      (∀ (l : Word) (j : Nat), (∀ k, k < 16 → streamAt s.cb k = (le64 Config.magic ++ le64 l)[k]?) →
        16 + l.toNat ≤ s.bufLen.toNat / 4 → 64 ≤ j → j < 64 + 4 * l.toNat → s.cb.read j = none →
        exec .extract s = .refused (.unwrittenByte .cb))))

/-- The frame of the operations that move no memory: every register but the destinations, and every byte, is as before. -/
def Obligations.FrameOfRegisterOperations : Prop :=
  ∀ (s t : State),
    (∀ ofs, exec (.fext2 ofs) s = .next t → t = { s with fv := t.fv, status := t.status }) ∧
    (∀ ofs, exec (.fins2 ofs) s = .next t → t = { s with pb := t.pb, status := t.status }) ∧
    (exec .gdec s = .next t → t = { s with pb := t.pb, status := t.status }) ∧
    (exec .genc s = .next t →
      t = { s with ch0 := t.ch0, ch1 := t.ch1, ch2 := t.ch2, ch3 := t.ch3, status := t.status }) ∧
    (exec .hser s = .next t → t = { s with hdr := t.hdr, status := t.status }) ∧
    (exec .hpar s = .next t → t = { s with hmagic := t.hmagic, msgLen := t.msgLen, status := t.status }) ∧
    (∀ i, (exec i s = .next t ∧ i ≠ .srd ∧ i ≠ .swr ∧ i ≠ .embed ∧ i ≠ .extract) →
      ∀ sp a, (t.mem sp).read a = (s.mem sp).read a)

/-- The frame of the operations that store: every register but the destinations, and every byte outside the ones stored to,
is as before; the stored bytes run from address 0 up to the length the meaning computes. -/
def Obligations.FrameOfStoringOperations : Prop :=
  ∀ (s t : State),
    (exec .srd s = .next t →
      t = { s with sb := t.sb, strLen := t.strLen, status := t.status } ∧
      ∀ sp a, ¬ (sp = .sb ∧ a < capacity s) → (t.mem sp).read a = (s.mem sp).read a) ∧
    (exec .swr s = .next t →
      t = { s with cb := t.cb, status := t.status } ∧
      ∀ sp a, ¬ (sp = .cb ∧ a < groupAddr s.strLen.toNat) → (t.mem sp).read a = (s.mem sp).read a) ∧
    (exec .embed s = .next t →
      t = { s with cb := t.cb, status := t.status } ∧
      ∀ sp a, ¬ (sp = .cb ∧ a < groupAddr (streamLen s.msgLen)) → (t.mem sp).read a = (s.mem sp).read a) ∧
    (exec .extract s = .next t →
      t = { s with mb := t.mb, msgLen := t.msgLen, status := t.status } ∧
      ∀ sp a, ¬ (sp = .mb ∧ t.status = 0x01#8 ∧ a < t.msgLen.toNat) → (t.mem sp).read a = (s.mem sp).read a)

/-- R36, read sets: two states alike in what an operation reads give the same outcome and the same results. -/
def Obligations.OperationsReadOnlyTheirReadSet : Prop :=
  ∀ (i : Instr) (s u t : State), ReadsAlike i s u → exec i s = .next t → ∃ v, exec i u = .next v ∧ WroteAlike i t v

/-- R170: every operation ends with one outcome code; under any but OK, STATUS is all that changes. -/
def Obligations.FailureChangesStatusOnly : Prop :=
  ∀ (i : Instr) (s t : State), exec i s = .next t →
    1 ≤ t.status.toNat ∧ t.status.toNat ≤ 6 ∧ (t.status ≠ 0x01#8 → t = { s with status := t.status })

/-- R171, R172, R173: which operation can end in which code. -/
def Obligations.OutcomeCodesByOperation : Prop :=
  ∀ (i : Instr) (s t : State), exec i s = .next t →
    (t.status = 0x02#8 → i = .embed ∧ s.bufLen.toNat / 4 < 16 + s.msgLen.toNat) ∧
    (t.status = 0x03#8 → i = .extract) ∧ (t.status = 0x04#8 → i = .extract) ∧ t.status ≠ 0x05#8 ∧
    (t.status = 0x06#8 → i = .fext2 7 ∨ i = .fins2 7 ∨ (i = .swr ∧ s.bufLen.toNat < 4 * s.strLen.toNat))

/-- R33: the decode side borrows CB immutably, EMBED reads MB only and SWR reads SB only. -/
def Obligations.BorrowedSpacesAreKept : Prop :=
  ∀ s t : State,
    (exec .srd s = .next t → t.cb = s.cb) ∧ (exec .extract s = .next t → t.cb = s.cb) ∧
    (exec .embed s = .next t → t.mb = s.mb) ∧ (exec .swr s = .next t → t.sb = s.sb)

/-- R90, R55: no operation changes the high 6 bits of a channel byte, or any bit of a byte past the last whole group, and
none gives a channel byte that had no value one. -/
def Obligations.CoreKeepsTheCarrier : Prop :=
  ∀ (i : Instr) (s t : State), exec i s = .next t →
    (∀ (a : Nat) (c : Byte), s.cb.read a = some c → ∃ c', t.cb.read a = some c' ∧ c' >>> 2 = c >>> 2) ∧
    (∀ a, s.cb.read a = none → t.cb.read a = none) ∧
    (∀ a, 4 * (s.bufLen.toNat / 4) ≤ a → t.cb.read a = s.cb.read a)

/-! ### The memories -/

/-- R50: an access of n bytes is n accesses of one byte: element i of the sequence goes to, and comes from, address a + i. -/
def Obligations.WideAccessIsBytewise : Prop :=
  (∀ (s : State) (sp : Space) (a : Nat) (b : Byte) (bs : List Byte),
    memWrite s sp a (b :: bs) = andThen (memWrite s sp a [b]) fun t => memWrite t sp (a + 1) bs) ∧
  (∀ (s : State) (sp : Space) (a n : Nat) (bs : List Byte),
    memRead s sp a n = .next bs ↔
      (bs.length = n ∧ ∀ j b, bs[j]? = some b → memRead s sp (a + j) 1 = .next [b]))

/-- R63, R30: a read gives the value of the most recent write to that byte of that space, and no other byte changes. -/
def Obligations.ReadGivesTheLastWrite : Prop :=
  ∀ (s t : State) (sp : Space) (a : Nat) (bs : List Byte), memWrite s sp a bs = .next t →
    memRead t sp a bs.length = .next bs ∧
    ∀ sp' x, ¬ (sp' = sp ∧ a ≤ x ∧ x < a + bs.length) → (t.mem sp').read x = (s.mem sp').read x

/-- R64: writes of disjoint ranges commute. -/
def Obligations.DisjointWritesCommute : Prop :=
  ∀ (s : State) (sp : Space) (a b : Nat) (x y : List Byte), (s.mem sp).wf = true →
    (a + x.length ≤ b ∨ b + y.length ≤ a) → a + x.length ≤ s.capOf sp → b + y.length ≤ s.capOf sp →
    andThen (memWrite s sp a x) (fun t => memWrite t sp b y) = andThen (memWrite s sp b y) fun t => memWrite t sp a x

/-! ### The host and the machine -/

/-- R23: a host write of STATUS, HMAGIC or MAGIC is ignored; of an 8-bit register the low 8 bits are kept; BUF_LEN, MSG_LEN,
STR_LEN and HDR take every value of their width; no other register changes. -/
def Obligations.HostWritesRegisters : Prop :=
  ∀ (s : State) (r : Reg) (v : HdrWord) (rest : List HostAction), s.script = .wr r v :: rest → r ≠ .cmd →
    ∃ t, step s = .next t ∧
      (r = .status ∨ r = .hmagic ∨ r = .magic → t = { s with script := rest }) ∧
      (r = .pb ∨ r = .fv ∨ r = .ch0 ∨ r = .ch1 ∨ r = .ch2 ∨ r = .ch3 → (regValue t r).toNat = v.toNat % 2 ^ 8) ∧
      (r = .bufLen ∨ r = .msgLen ∨ r = .strLen → v.toNat < 2 ^ 64 → regValue t r = v) ∧
      (r = .hdr → regValue t r = v) ∧
      (∀ q, q ≠ r → regValue t q = regValue s q) ∧ (∀ sp, t.mem sp = s.mem sp)

/-- R21: a host read hands over the register's value and changes nothing of the machine; a read of CMD is refused. The list
`seen` the value goes to and the name of the refusal are the model's (log 5, log 10). -/
def Obligations.HostReadsRegisters : Prop :=
  ∀ (s : State) (r : Reg) (rest : List HostAction), s.script = .rd r :: rest →
    (r ≠ .cmd → step s = .next { s with script := rest, seen := .reg r (regValue s r) :: s.seen }) ∧
    (r = .cmd → step s = .refused .readOfCmd)

/-- R24: MAGIC reads its constant in every state, and a write leaves everything as it is. That a value read goes to `seen` is
the model's way to hold it (log 5). -/
def Obligations.MagicIsHardwired : Prop :=
  ∀ (s : State) (v : HdrWord) (rest : List HostAction),
    (s.script = .rd .magic :: rest →
      step s = .next { s with script := rest, seen := .reg .magic 0xF3D37B0C676EDCA6#128 :: s.seen }) ∧
    (s.script = .wr .magic v :: rest → step s = .next { s with script := rest })

/-- R22, R21: a register is addressed by its name or by its number, one number a register: the fourteen numbers of R21. -/
def Obligations.RegisterNumbersAreIdentities : Prop :=
  (Reg.number .cmd = 0 ∧ Reg.number .status = 1 ∧ Reg.number .pb = 2 ∧ Reg.number .fv = 3 ∧ Reg.number .ch0 = 4 ∧
    Reg.number .ch1 = 5 ∧ Reg.number .ch2 = 6 ∧ Reg.number .ch3 = 7 ∧ Reg.number .bufLen = 8 ∧ Reg.number .msgLen = 9 ∧
    Reg.number .strLen = 10 ∧ Reg.number .hmagic = 11 ∧ Reg.number .magic = 12 ∧ Reg.number .hdr = 13) ∧
  (∀ r : Reg, Reg.ofNumber r.number = some r ∧ r.number < 14) ∧
  (∀ (n : Nat) (r : Reg), Reg.ofNumber n = some r → r.number = n)

/-- R40, R195: after reset STATUS is IDLE, MAGIC reads its constant and no operation is in progress, so that the core does
nothing of itself; the state the machine starts in, and the state a reset by the host leaves. That a step with an empty script
changes nothing is the model's choice (log 4). -/
def Obligations.ResetLeavesIdle : Prop :=
  (State.reset.status = 0x00#8 ∧ regValue State.reset .magic = 0xF3D37B0C676EDCA6#128 ∧ step State.reset = .next State.reset) ∧
  ∀ (s : State) (rest : List HostAction), s.script = .reset :: rest →
    ∃ t, step s = .next t ∧ t.status = 0x00#8 ∧ regValue t .magic = 0xF3D37B0C676EDCA6#128 ∧
      step { t with script := [] } = .next { t with script := [] }

/-- R41: after reset no byte of any space has a value, whatever was written before (the model's choice among the two the
rule allows, log 2). -/
def Obligations.ResetLeavesBytesWithoutValue : Prop :=
  (∀ sp a, (State.reset.mem sp).read a = none) ∧
  ∀ (s t : State) (rest : List HostAction), s.script = .reset :: rest → step s = .next t →
    ∀ sp a, (t.mem sp).read a = none

/-- R171: IDLE is left by reset only: a step that ends with it began with it, or was a reset. -/
def Obligations.IdleOnlyByReset : Prop :=
  ∀ s t : State, step s = .next t → t.status = 0x00#8 →
    s.status = 0x00#8 ∨ ∃ rest, s.script = .reset :: rest

/-- 00_scope R8, R30, R171: every step keeps STATUS a legal code and each space canonical and inside its capacity; and no
step changes a capacity. That the capacities are fields of the state is the model's choice (log 7). -/
def Obligations.StepKeepsTheInvariant : Prop :=
  ∀ s t : State, s.Inv → step s = .next t → t.Inv ∧ ∀ sp, t.capOf sp = s.capOf sp

/-- The invariant holds after reset, where the capacities have the model's values (log 7). -/
def Obligations.ResetMeetsTheInvariant : Prop := State.reset.Inv
end

