-- ==== Sys2Proof/Laws/Codec.lean ====
section
/-! SUPPORT. The small lemmas of the pure functions: lengths, domains, and one equation per case. -/

namespace Sys2Proof.Machine

/-! ### The stream codec -/

@[simp] theorem Group.bytes_length (g : Group) : g.bytes.length = 4 := rfl

@[simp] theorem readStream_cons (c0 c1 c2 c3 : Byte) (B : List Byte) :
    readStream (c0 :: c1 :: c2 :: c3 :: B) = decodeGroup ⟨c0, c1, c2, c3⟩ :: readStream B := rfl

@[simp] theorem writeStream_nil (B : List Byte) : writeStream B [] = some B := by
  cases B <;> rfl

@[simp] theorem writeStream_cons (c0 c1 c2 c3 p : Byte) (B S : List Byte) :
    writeStream (c0 :: c1 :: c2 :: c3 :: B) (p :: S) =
      (writeStream B S).map ((encodeGroup p ⟨c0, c1, c2, c3⟩).bytes ++ ·) := rfl

/-- A list is shorter than one group, or starts with one. -/
theorem short_or_group (B : List Byte) : B.length < 4 ∨ ∃ c0 c1 c2 c3 B', B = c0 :: c1 :: c2 :: c3 :: B' := by
  match B with
  | [] => left; decide
  | [_] => left; simp
  | [_, _] => left; simp
  | [_, _, _] => left; simp
  | c0 :: c1 :: c2 :: c3 :: B' => exact .inr ⟨c0, c1, c2, c3, B', rfl⟩

theorem readStream_of_short {B : List Byte} (h : B.length < 4) : readStream B = [] := by
  match B, h with
  | [], _ => rfl
  | [_], _ => rfl
  | [_, _], _ => rfl
  | [_, _, _], _ => rfl

/-- Induction over the groups of a buffer. -/
theorem group_induction {P : List Byte → Prop} (short : ∀ B, B.length < 4 → P B)
    (step : ∀ c0 c1 c2 c3 B, P B → P (c0 :: c1 :: c2 :: c3 :: B)) (B : List Byte) : P B := by
  induction hn : B.length using Nat.strong_induction_on generalizing B with
  | _ n ih =>
    rcases short_or_group B with h | ⟨c0, c1, c2, c3, B', rfl⟩
    · exact short B h
    · exact step c0 c1 c2 c3 B' (ih B'.length (by simp only [List.length_cons] at hn; omega) B' rfl)

theorem readStream_length (B : List Byte) : (readStream B).length = B.length / 4 := by
  induction B using group_induction with
  | short B h => rw [readStream_of_short h, List.length_nil]; omega
  | step c0 c1 c2 c3 B ih => simp only [readStream_cons, List.length_cons, ih]; omega

/-- The domain of `WriteStream` (42_stream_codec R131). -/
theorem writeStream_isSome_iff {B S : List Byte} : (∃ B', writeStream B S = some B') ↔ 4 * S.length ≤ B.length := by
  induction S generalizing B with
  | nil => simp
  | cons p S ih =>
    rcases short_or_group B with h | ⟨c0, c1, c2, c3, B', rfl⟩
    · have : writeStream B (p :: S) = none := by
        match B, h with
        | [], _ => rfl
        | [_], _ => rfl
        | [_, _], _ => rfl
        | [_, _, _], _ => rfl
      simp only [this, List.length_cons]
      constructor
      · rintro ⟨_, h⟩; cases h
      · omega
    · simp only [writeStream_cons, Option.map_eq_some_iff, List.length_cons]
      constructor
      · rintro ⟨_, B'', h, -⟩
        have := ih.1 ⟨B'', h⟩
        omega
      · intro h
        obtain ⟨B'', hB⟩ := ih (B := B') |>.2 (by omega)
        exact ⟨_, B'', hB, rfl⟩

theorem writeStream_eq_none {B S : List Byte} (h : B.length < 4 * S.length) : writeStream B S = none := by
  cases hw : writeStream B S with
  | none => rfl
  | some B' => exact absurd (writeStream_isSome_iff.1 ⟨B', hw⟩) (by omega)

theorem writeStream_length {B S B' : List Byte} (h : writeStream B S = some B') : B'.length = B.length := by
  induction S generalizing B B' with
  | nil => simp at h; rw [h]
  | cons p S ih =>
    rcases short_or_group B with hs | ⟨c0, c1, c2, c3, B₁, rfl⟩
    · rw [writeStream_eq_none (by simp only [List.length_cons]; omega)] at h
      cases h
    · rw [writeStream_cons, Option.map_eq_some_iff] at h
      obtain ⟨B₂, h, rfl⟩ := h
      simp only [List.length_append, Group.bytes_length, List.length_cons, ih h]
      omega

/-! ### Byte order -/

@[simp] theorem le64_length (v : Word) : (le64 v).length = 8 := by simp [le64]

@[simp] theorem hdrBytes_length (v : HdrWord) : (hdrBytes v).length = 16 := by simp [hdrBytes]

@[simp] theorem serializeHeader_length (l : Word) : (serializeHeader l).length = 16 := by simp [serializeHeader]

theorem natOfBytes_lt (h : List Byte) : natOfBytes h < 256 ^ h.length := by
  induction h with
  | nil => simp [natOfBytes]
  | cons b h ih =>
    have := b.isLt
    simp only [natOfBytes, List.length_cons, Nat.pow_succ]
    omega

theorem natOfBytes_append (h k : List Byte) : natOfBytes (h ++ k) = natOfBytes h + 256 ^ h.length * natOfBytes k := by
  induction h with
  | nil => simp [natOfBytes]
  | cons b h ih => simp only [List.cons_append, natOfBytes, ih, List.length_cons, Nat.pow_succ]; ring

/-! ### The encoder's domain -/

theorem embed_of_short {B M : List Byte} (h : B.length / 4 < 16 + M.length) : embed B M = none := if_pos h

theorem embed_of_fits {B M : List Byte} (h : ¬ B.length / 4 < 16 + M.length) :
    embed B M = writeStream B (serializeHeader (BitVec.ofNat 64 M.length) ++ M) := if_neg h

theorem embed_length {B M B' : List Byte} (h : embed B M = some B') : B'.length = B.length := by
  unfold embed at h
  split at h
  · cases h
  · exact writeStream_length h

end Sys2Proof.Machine
end

