-- ==== Sys2Proof/Laws/Mem.lean ====
section
/-! SUPPORT. The laws of one space's bytes: read after write, and the canonical form, which every write keeps. -/

namespace Sys2Proof.Machine

/-! ### The canonical form -/

theorem Mem.wf_iff_pairwise (m : Mem) : Mem.wf m = true ↔ m.Pairwise (fun c d => c.1 < d.1) := by
  induction m with
  | nil => simp [Mem.wf]
  | cons c m ih =>
    cases m with
    | nil => simp [Mem.wf]
    | cons d m =>
      rw [Mem.wf, Bool.and_eq_true, decide_eq_true_iff, ih]
      constructor
      · rintro ⟨h, hp⟩
        refine List.pairwise_cons.2 ⟨fun e he => ?_, hp⟩
        rcases List.mem_cons.1 he with rfl | he
        · exact h
        · exact Nat.lt_trans h ((List.pairwise_cons.1 hp).1 e he)
      · intro hp
        obtain ⟨h, hp⟩ := List.pairwise_cons.1 hp
        exact ⟨h d (by simp), hp⟩

theorem Mem.cells_addr {a : Nat} {bs : List Byte} {c : Host.Cell} (h : c ∈ Mem.cells a bs) :
    a ≤ c.1 ∧ c.1 < a + bs.length := by
  induction bs generalizing a with
  | nil => simp [Mem.cells] at h
  | cons b bs ih =>
    rcases List.mem_cons.1 h with rfl | h
    · simp
    · have := ih h
      simp only [List.length_cons]
      omega

theorem Mem.cells_pairwise (a : Nat) (bs : List Byte) : (Mem.cells a bs).Pairwise (fun c d => c.1 < d.1) := by
  induction bs generalizing a with
  | nil => simp [Mem.cells]
  | cons b bs ih => exact List.pairwise_cons.2 ⟨fun d hd => by have := Mem.cells_addr hd; simp; omega, ih (a + 1)⟩

theorem Mem.writeBytes_wf {m : Mem} (h : Mem.wf m = true) (a : Nat) (bs : List Byte) :
    Mem.wf (Mem.writeBytes m a bs) = true := by
  rw [Mem.wf_iff_pairwise] at h ⊢
  refine List.pairwise_append.2 ⟨List.pairwise_append.2 ⟨h.filter _, Mem.cells_pairwise a bs, ?_⟩, h.filter _, ?_⟩
  · intro c hc d hd
    have := Mem.cells_addr hd
    simp only [List.mem_filter, decide_eq_true_eq] at hc
    omega
  · intro c hc d hd
    simp only [List.mem_filter, decide_eq_true_eq] at hd
    rcases List.mem_append.1 hc with hc | hc
    · simp only [List.mem_filter, decide_eq_true_eq] at hc
      omega
    · have := Mem.cells_addr hc
      omega

theorem Mem.writeBytes_below {m : Mem} {cap : Nat} (h : Mem.below cap m = true) {a : Nat} {bs : List Byte}
    (hn : bs = [] ∨ a + bs.length ≤ cap) : Mem.below cap (Mem.writeBytes m a bs) = true := by
  simp only [Mem.below, List.all_eq_true, decide_eq_true_eq] at h ⊢
  intro c hc
  rcases List.mem_append.1 hc with hc | hc
  · rcases List.mem_append.1 hc with hc | hc
    · exact h c (List.mem_of_mem_filter hc)
    · have := Mem.cells_addr hc
      rcases hn with rfl | hn
      · simp at this
        omega
      · omega
  · exact h c (List.mem_of_mem_filter hc)

/-! ### Reading -/

theorem Mem.read_append (m m' : Mem) (x : Nat) :
    Mem.read (m ++ m') x = match Mem.read m x with | some b => some b | none => Mem.read m' x := by
  induction m with
  | nil => simp [Mem.read, Config.unlisted]
  | cons c m ih =>
    simp only [List.cons_append, Mem.read]
    split
    · rfl
    · exact ih

theorem Mem.read_eq_none_of_forall {m : Mem} {x : Nat} (h : ∀ c ∈ m, c.1 ≠ x) : Mem.read m x = none := by
  induction m with
  | nil => rfl
  | cons c m ih =>
    rw [Mem.read, if_neg (h c (by simp))]
    exact ih fun d hd => h d (by simp [hd])

theorem Mem.read_filter (m : Mem) (p : Nat → Bool) (x : Nat) :
    Mem.read (m.filter (fun c => p c.1)) x = if p x then Mem.read m x else none := by
  induction m with
  | nil => simp [Mem.read, Config.unlisted]
  | cons c m ih =>
    by_cases hc : p c.1
    · rw [List.filter_cons_of_pos (by simpa using hc), Mem.read, Mem.read, ih]
      by_cases hx : c.1 = x
      · subst hx; simp [hc]
      · simp [hx]
    · rw [List.filter_cons_of_neg (by simpa using hc), ih, Mem.read]
      by_cases hx : c.1 = x
      · subst hx; simp [hc]
      · simp [hx]

theorem Mem.read_cells (a : Nat) (bs : List Byte) (x : Nat) :
    Mem.read (Mem.cells a bs) x = if a ≤ x then bs[x - a]? else none := by
  induction bs generalizing a with
  | nil => simp [Mem.cells, Mem.read, Config.unlisted]
  | cons b bs ih =>
    rw [Mem.cells, Mem.read, ih]
    by_cases h : a = x
    · subst h; simp
    · rw [if_neg h]
      by_cases hx : a ≤ x
      · have : x - a = (x - (a + 1)) + 1 := by omega
        rw [if_pos (by omega), if_pos hx, this, List.getElem?_cons_succ]
      · rw [if_neg (by omega), if_neg hx]

/-- Read after write: the written bytes read as written, every other address as before. -/
theorem Mem.read_writeBytes (m : Mem) (a : Nat) (bs : List Byte) (x : Nat) :
    Mem.read (Mem.writeBytes m a bs) x = if a ≤ x ∧ x < a + bs.length then bs[x - a]? else Mem.read m x := by
  rw [Mem.writeBytes, Mem.read_append, Mem.read_append, Mem.read_filter m (fun y => decide (y < a)),
    Mem.read_filter m (fun y => decide (a + bs.length ≤ y)), Mem.read_cells]
  simp only [decide_eq_true_eq]
  by_cases h1 : x < a
  · rw [if_pos h1, if_neg (by omega), if_neg (by omega), if_neg (by omega)]
    cases Mem.read m x <;> rfl
  · by_cases h2 : x < a + bs.length
    · rw [if_neg h1, if_pos (by omega), if_neg (by omega), if_pos ⟨by omega, h2⟩]
      cases bs[x - a]? <;> rfl
    · have h3 : bs[x - a]? = none := List.getElem?_eq_none (by omega)
      rw [if_neg h1, if_pos (by omega), if_pos (by omega), if_neg (by omega), h3]

theorem Mem.read_writeBytes_of_lt {m : Mem} {a : Nat} {bs : List Byte} {x : Nat} (h : x < a) :
    Mem.read (Mem.writeBytes m a bs) x = Mem.read m x := by
  rw [Mem.read_writeBytes, if_neg (by omega)]

theorem Mem.read_writeBytes_of_ge {m : Mem} {a : Nat} {bs : List Byte} {x : Nat} (h : a + bs.length ≤ x) :
    Mem.read (Mem.writeBytes m a bs) x = Mem.read m x := by
  rw [Mem.read_writeBytes, if_neg (by omega)]

theorem Mem.read_writeBytes_zero (m : Mem) (bs : List Byte) (x : Nat) :
    Mem.read (Mem.writeBytes m 0 bs) x = if x < bs.length then bs[x]? else Mem.read m x := by
  rw [Mem.read_writeBytes]
  simp

/-- Two canonical memories that read alike are equal lists. -/
theorem Mem.ext_of_read {m m' : Mem} (h : Mem.wf m = true) (h' : Mem.wf m' = true)
    (hr : ∀ x, Mem.read m x = Mem.read m' x) : m = m' := by
  rw [Mem.wf_iff_pairwise] at h h'
  induction m generalizing m' with
  | nil =>
    cases m' with
    | nil => rfl
    | cons d m' => simpa [Mem.read, Config.unlisted] using hr d.1
  | cons c m ih =>
    cases m' with
    | nil => simpa [Mem.read, Config.unlisted] using hr c.1
    | cons d m' =>
      obtain ⟨hc, hm⟩ := List.pairwise_cons.1 h
      obtain ⟨hd, hm'⟩ := List.pairwise_cons.1 h'
      have none_c : Mem.read m c.1 = none := Mem.read_eq_none_of_forall fun e he => Nat.ne_of_gt (hc e he)
      have none_d : Mem.read m' d.1 = none := Mem.read_eq_none_of_forall fun e he => Nat.ne_of_gt (hd e he)
      have hcd : c.1 = d.1 := by
        rcases Nat.lt_trichotomy c.1 d.1 with hlt | heq | hgt
        · have := hr c.1
          rw [Mem.read, if_pos rfl, Mem.read, if_neg (by omega),
            Mem.read_eq_none_of_forall fun e he => by have := hd e he; omega] at this
          exact absurd this (by simp)
        · exact heq
        · have := hr d.1
          rw [Mem.read, if_neg (by omega), Mem.read, if_pos rfl,
            Mem.read_eq_none_of_forall fun e he => by have := hc e he; omega] at this
          exact absurd this (by simp)
      have hb : c.2 = d.2 := by
        have := hr c.1
        rw [Mem.read, if_pos rfl, Mem.read, if_pos hcd.symm] at this
        exact Option.some.inj this
      have hrest : m = m' := by
        refine ih hm hm' fun x => ?_
        by_cases hx : c.1 = x
        · subst hx; rw [none_c, hcd, none_d]
        · have := hr x
          rwa [Mem.read, if_neg hx, Mem.read, if_neg (by omega)] at this
      rw [hrest, Prod.ext hcd hb]

/-! ### Reading several bytes -/

theorem Mem.readBytes_eq_some_iff {m : Mem} {a n : Nat} {bs : List Byte} :
    Mem.readBytes m a n = some bs ↔ bs.length = n ∧ ∀ j, j < n → Mem.read m (a + j) = bs[j]? := by
  induction n generalizing a bs with
  | zero =>
    simp only [Mem.readBytes, Option.some.injEq, Nat.not_lt_zero, false_implies, implies_true, and_true]
    constructor
    · rintro rfl; rfl
    · intro h; exact (List.length_eq_zero_iff.1 h).symm
  | succ n ih =>
    cases hr : Mem.read m a with
    | none =>
      simp only [Mem.readBytes, hr, reduceCtorEq, false_iff, not_and]
      intro hl hall
      have := hall 0 (by omega)
      rw [Nat.add_zero, hr] at this
      cases bs with
      | nil => simp at hl
      | cons b bs => simp at this
    | some b =>
      simp only [Mem.readBytes, hr, Option.map_eq_some_iff]
      constructor
      · rintro ⟨cs, hcs, rfl⟩
        obtain ⟨hl, hall⟩ := ih.1 hcs
        refine ⟨by simp [hl], fun j hj => ?_⟩
        cases j with
        | zero => simpa using hr
        | succ j =>
          have := hall j (by omega)
          rw [List.getElem?_cons_succ, ← this]
          congr 1
          omega
      · rintro ⟨hl, hall⟩
        cases bs with
        | nil => simp at hl
        | cons c cs =>
          have h0 := hall 0 (by omega)
          rw [Nat.add_zero, hr] at h0
          refine ⟨cs, ih.2 ⟨by simpa using hl, fun j hj => ?_⟩, by simpa using h0⟩
          have := hall (j + 1) (by omega)
          rw [List.getElem?_cons_succ] at this
          rw [← this]
          congr 1
          omega

theorem Mem.readBytes_length {m : Mem} {a n : Nat} {bs : List Byte} (h : Mem.readBytes m a n = some bs) :
    bs.length = n := (Mem.readBytes_eq_some_iff.1 h).1

theorem Mem.readBytes_get {m : Mem} {a n : Nat} {bs : List Byte} (h : Mem.readBytes m a n = some bs) {j : Nat}
    (hj : j < n) : Mem.read m (a + j) = bs[j]? := (Mem.readBytes_eq_some_iff.1 h).2 j hj

theorem Mem.readBytes_isSome_iff {m : Mem} {a n : Nat} :
    (∃ bs, Mem.readBytes m a n = some bs) ↔ ∀ j, j < n → (Mem.read m (a + j)).isSome = true := by
  induction n generalizing a with
  | zero => simp [Mem.readBytes]
  | succ n ih =>
    constructor
    · rintro ⟨bs, h⟩ j hj
      rw [Mem.readBytes_get h hj]
      simp [Mem.readBytes_length h, hj]
    · intro h
      have h0 := h 0 (by omega)
      obtain ⟨b, hb⟩ := Option.isSome_iff_exists.1 h0
      obtain ⟨bs, hbs⟩ := ih.2 fun j hj => by
        have := h (j + 1) (by omega)
        rwa [show a + (j + 1) = a + 1 + j by omega] at this
      exact ⟨b :: bs, by simp only [Nat.add_zero] at hb; simp [Mem.readBytes, hb, hbs]⟩

/-- A read of a range split in two. -/
theorem Mem.readBytes_add (m : Mem) (a n k : Nat) :
    Mem.readBytes m a (n + k) =
      match Mem.readBytes m a n, Mem.readBytes m (a + n) k with
      | some x, some y => some (x ++ y)
      | _, _ => none := by
  induction n generalizing a with
  | zero =>
    rw [Nat.zero_add, Nat.add_zero, Mem.readBytes]
    cases Mem.readBytes m a k <;> rfl
  | succ n ih =>
    rw [Nat.add_right_comm, Mem.readBytes, Mem.readBytes, ih, show a + (n + 1) = a + 1 + n by omega]
    cases Mem.read m a with
    | none => rfl
    | some b =>
      cases Mem.readBytes m (a + 1) n with
      | none => rfl
      | some x => cases Mem.readBytes m (a + 1 + n) k <;> rfl

/-- Reading back what was written. -/
theorem Mem.readBytes_writeBytes (m : Mem) (a : Nat) (bs : List Byte) :
    Mem.readBytes (Mem.writeBytes m a bs) a bs.length = some bs := by
  refine Mem.readBytes_eq_some_iff.2 ⟨rfl, fun j hj => ?_⟩
  rw [Mem.read_writeBytes, if_pos ⟨by omega, by omega⟩]
  congr 1
  omega

end Sys2Proof.Machine
end

