-- ==== Sys2Proof/Laws/State.lean ====
section
/-! SUPPORT. One lemma per field per update of State, each true by unfolding, so that no later proof unfolds one. -/

namespace Sys2Proof.Machine

variable (s : State)

/-! ### `setCmd` -/

@[simp] theorem State.setCmd_cmd (v : Byte) : (s.setCmd v).cmd = v := rfl
@[simp] theorem State.setCmd_status (v : Byte) : (s.setCmd v).status = s.status := rfl
@[simp] theorem State.setCmd_pb (v : Byte) : (s.setCmd v).pb = s.pb := rfl
@[simp] theorem State.setCmd_fv (v : Byte) : (s.setCmd v).fv = s.fv := rfl
@[simp] theorem State.setCmd_ch0 (v : Byte) : (s.setCmd v).ch0 = s.ch0 := rfl
@[simp] theorem State.setCmd_ch1 (v : Byte) : (s.setCmd v).ch1 = s.ch1 := rfl
@[simp] theorem State.setCmd_ch2 (v : Byte) : (s.setCmd v).ch2 = s.ch2 := rfl
@[simp] theorem State.setCmd_ch3 (v : Byte) : (s.setCmd v).ch3 = s.ch3 := rfl
@[simp] theorem State.setCmd_bufLen (v : Byte) : (s.setCmd v).bufLen = s.bufLen := rfl
@[simp] theorem State.setCmd_msgLen (v : Byte) : (s.setCmd v).msgLen = s.msgLen := rfl
@[simp] theorem State.setCmd_strLen (v : Byte) : (s.setCmd v).strLen = s.strLen := rfl
@[simp] theorem State.setCmd_hmagic (v : Byte) : (s.setCmd v).hmagic = s.hmagic := rfl
@[simp] theorem State.setCmd_hdr (v : Byte) : (s.setCmd v).hdr = s.hdr := rfl
@[simp] theorem State.setCmd_cb (v : Byte) : (s.setCmd v).cb = s.cb := rfl
@[simp] theorem State.setCmd_mb (v : Byte) : (s.setCmd v).mb = s.mb := rfl
@[simp] theorem State.setCmd_sb (v : Byte) : (s.setCmd v).sb = s.sb := rfl
@[simp] theorem State.setCmd_cbMax (v : Byte) : (s.setCmd v).cbMax = s.cbMax := rfl
@[simp] theorem State.setCmd_mbMax (v : Byte) : (s.setCmd v).mbMax = s.mbMax := rfl
@[simp] theorem State.setCmd_sbMax (v : Byte) : (s.setCmd v).sbMax = s.sbMax := rfl
@[simp] theorem State.setCmd_script (v : Byte) : (s.setCmd v).script = s.script := rfl
@[simp] theorem State.setCmd_seen (v : Byte) : (s.setCmd v).seen = s.seen := rfl
@[simp] theorem State.setCmd_mem (v : Byte) (sp : Space) : (s.setCmd v).mem sp = s.mem sp := by cases sp <;> rfl
@[simp] theorem State.setCmd_capOf (v : Byte) (sp : Space) : (s.setCmd v).capOf sp = s.capOf sp := by cases sp <;> rfl

/-! ### `setStatus` -/

@[simp] theorem State.setStatus_cmd (v : Byte) : (s.setStatus v).cmd = s.cmd := rfl
@[simp] theorem State.setStatus_status (v : Byte) : (s.setStatus v).status = v := rfl
@[simp] theorem State.setStatus_pb (v : Byte) : (s.setStatus v).pb = s.pb := rfl
@[simp] theorem State.setStatus_fv (v : Byte) : (s.setStatus v).fv = s.fv := rfl
@[simp] theorem State.setStatus_ch0 (v : Byte) : (s.setStatus v).ch0 = s.ch0 := rfl
@[simp] theorem State.setStatus_ch1 (v : Byte) : (s.setStatus v).ch1 = s.ch1 := rfl
@[simp] theorem State.setStatus_ch2 (v : Byte) : (s.setStatus v).ch2 = s.ch2 := rfl
@[simp] theorem State.setStatus_ch3 (v : Byte) : (s.setStatus v).ch3 = s.ch3 := rfl
@[simp] theorem State.setStatus_bufLen (v : Byte) : (s.setStatus v).bufLen = s.bufLen := rfl
@[simp] theorem State.setStatus_msgLen (v : Byte) : (s.setStatus v).msgLen = s.msgLen := rfl
@[simp] theorem State.setStatus_strLen (v : Byte) : (s.setStatus v).strLen = s.strLen := rfl
@[simp] theorem State.setStatus_hmagic (v : Byte) : (s.setStatus v).hmagic = s.hmagic := rfl
@[simp] theorem State.setStatus_hdr (v : Byte) : (s.setStatus v).hdr = s.hdr := rfl
@[simp] theorem State.setStatus_cb (v : Byte) : (s.setStatus v).cb = s.cb := rfl
@[simp] theorem State.setStatus_mb (v : Byte) : (s.setStatus v).mb = s.mb := rfl
@[simp] theorem State.setStatus_sb (v : Byte) : (s.setStatus v).sb = s.sb := rfl
@[simp] theorem State.setStatus_cbMax (v : Byte) : (s.setStatus v).cbMax = s.cbMax := rfl
@[simp] theorem State.setStatus_mbMax (v : Byte) : (s.setStatus v).mbMax = s.mbMax := rfl
@[simp] theorem State.setStatus_sbMax (v : Byte) : (s.setStatus v).sbMax = s.sbMax := rfl
@[simp] theorem State.setStatus_script (v : Byte) : (s.setStatus v).script = s.script := rfl
@[simp] theorem State.setStatus_seen (v : Byte) : (s.setStatus v).seen = s.seen := rfl
@[simp] theorem State.setStatus_mem (v : Byte) (sp : Space) : (s.setStatus v).mem sp = s.mem sp := by cases sp <;> rfl
@[simp] theorem State.setStatus_capOf (v : Byte) (sp : Space) : (s.setStatus v).capOf sp = s.capOf sp := by cases sp <;> rfl

/-! ### `setPb` -/

@[simp] theorem State.setPb_cmd (v : Byte) : (s.setPb v).cmd = s.cmd := rfl
@[simp] theorem State.setPb_status (v : Byte) : (s.setPb v).status = s.status := rfl
@[simp] theorem State.setPb_pb (v : Byte) : (s.setPb v).pb = v := rfl
@[simp] theorem State.setPb_fv (v : Byte) : (s.setPb v).fv = s.fv := rfl
@[simp] theorem State.setPb_ch0 (v : Byte) : (s.setPb v).ch0 = s.ch0 := rfl
@[simp] theorem State.setPb_ch1 (v : Byte) : (s.setPb v).ch1 = s.ch1 := rfl
@[simp] theorem State.setPb_ch2 (v : Byte) : (s.setPb v).ch2 = s.ch2 := rfl
@[simp] theorem State.setPb_ch3 (v : Byte) : (s.setPb v).ch3 = s.ch3 := rfl
@[simp] theorem State.setPb_bufLen (v : Byte) : (s.setPb v).bufLen = s.bufLen := rfl
@[simp] theorem State.setPb_msgLen (v : Byte) : (s.setPb v).msgLen = s.msgLen := rfl
@[simp] theorem State.setPb_strLen (v : Byte) : (s.setPb v).strLen = s.strLen := rfl
@[simp] theorem State.setPb_hmagic (v : Byte) : (s.setPb v).hmagic = s.hmagic := rfl
@[simp] theorem State.setPb_hdr (v : Byte) : (s.setPb v).hdr = s.hdr := rfl
@[simp] theorem State.setPb_cb (v : Byte) : (s.setPb v).cb = s.cb := rfl
@[simp] theorem State.setPb_mb (v : Byte) : (s.setPb v).mb = s.mb := rfl
@[simp] theorem State.setPb_sb (v : Byte) : (s.setPb v).sb = s.sb := rfl
@[simp] theorem State.setPb_cbMax (v : Byte) : (s.setPb v).cbMax = s.cbMax := rfl
@[simp] theorem State.setPb_mbMax (v : Byte) : (s.setPb v).mbMax = s.mbMax := rfl
@[simp] theorem State.setPb_sbMax (v : Byte) : (s.setPb v).sbMax = s.sbMax := rfl
@[simp] theorem State.setPb_script (v : Byte) : (s.setPb v).script = s.script := rfl
@[simp] theorem State.setPb_seen (v : Byte) : (s.setPb v).seen = s.seen := rfl
@[simp] theorem State.setPb_mem (v : Byte) (sp : Space) : (s.setPb v).mem sp = s.mem sp := by cases sp <;> rfl
@[simp] theorem State.setPb_capOf (v : Byte) (sp : Space) : (s.setPb v).capOf sp = s.capOf sp := by cases sp <;> rfl

/-! ### `setFv` -/

@[simp] theorem State.setFv_cmd (v : Byte) : (s.setFv v).cmd = s.cmd := rfl
@[simp] theorem State.setFv_status (v : Byte) : (s.setFv v).status = s.status := rfl
@[simp] theorem State.setFv_pb (v : Byte) : (s.setFv v).pb = s.pb := rfl
@[simp] theorem State.setFv_fv (v : Byte) : (s.setFv v).fv = v := rfl
@[simp] theorem State.setFv_ch0 (v : Byte) : (s.setFv v).ch0 = s.ch0 := rfl
@[simp] theorem State.setFv_ch1 (v : Byte) : (s.setFv v).ch1 = s.ch1 := rfl
@[simp] theorem State.setFv_ch2 (v : Byte) : (s.setFv v).ch2 = s.ch2 := rfl
@[simp] theorem State.setFv_ch3 (v : Byte) : (s.setFv v).ch3 = s.ch3 := rfl
@[simp] theorem State.setFv_bufLen (v : Byte) : (s.setFv v).bufLen = s.bufLen := rfl
@[simp] theorem State.setFv_msgLen (v : Byte) : (s.setFv v).msgLen = s.msgLen := rfl
@[simp] theorem State.setFv_strLen (v : Byte) : (s.setFv v).strLen = s.strLen := rfl
@[simp] theorem State.setFv_hmagic (v : Byte) : (s.setFv v).hmagic = s.hmagic := rfl
@[simp] theorem State.setFv_hdr (v : Byte) : (s.setFv v).hdr = s.hdr := rfl
@[simp] theorem State.setFv_cb (v : Byte) : (s.setFv v).cb = s.cb := rfl
@[simp] theorem State.setFv_mb (v : Byte) : (s.setFv v).mb = s.mb := rfl
@[simp] theorem State.setFv_sb (v : Byte) : (s.setFv v).sb = s.sb := rfl
@[simp] theorem State.setFv_cbMax (v : Byte) : (s.setFv v).cbMax = s.cbMax := rfl
@[simp] theorem State.setFv_mbMax (v : Byte) : (s.setFv v).mbMax = s.mbMax := rfl
@[simp] theorem State.setFv_sbMax (v : Byte) : (s.setFv v).sbMax = s.sbMax := rfl
@[simp] theorem State.setFv_script (v : Byte) : (s.setFv v).script = s.script := rfl
@[simp] theorem State.setFv_seen (v : Byte) : (s.setFv v).seen = s.seen := rfl
@[simp] theorem State.setFv_mem (v : Byte) (sp : Space) : (s.setFv v).mem sp = s.mem sp := by cases sp <;> rfl
@[simp] theorem State.setFv_capOf (v : Byte) (sp : Space) : (s.setFv v).capOf sp = s.capOf sp := by cases sp <;> rfl

/-! ### `setGroup` -/

@[simp] theorem State.setGroup_cmd (g : Group) : (s.setGroup g).cmd = s.cmd := rfl
@[simp] theorem State.setGroup_status (g : Group) : (s.setGroup g).status = s.status := rfl
@[simp] theorem State.setGroup_pb (g : Group) : (s.setGroup g).pb = s.pb := rfl
@[simp] theorem State.setGroup_fv (g : Group) : (s.setGroup g).fv = s.fv := rfl
@[simp] theorem State.setGroup_ch0 (g : Group) : (s.setGroup g).ch0 = g.c0 := rfl
@[simp] theorem State.setGroup_ch1 (g : Group) : (s.setGroup g).ch1 = g.c1 := rfl
@[simp] theorem State.setGroup_ch2 (g : Group) : (s.setGroup g).ch2 = g.c2 := rfl
@[simp] theorem State.setGroup_ch3 (g : Group) : (s.setGroup g).ch3 = g.c3 := rfl
@[simp] theorem State.setGroup_bufLen (g : Group) : (s.setGroup g).bufLen = s.bufLen := rfl
@[simp] theorem State.setGroup_msgLen (g : Group) : (s.setGroup g).msgLen = s.msgLen := rfl
@[simp] theorem State.setGroup_strLen (g : Group) : (s.setGroup g).strLen = s.strLen := rfl
@[simp] theorem State.setGroup_hmagic (g : Group) : (s.setGroup g).hmagic = s.hmagic := rfl
@[simp] theorem State.setGroup_hdr (g : Group) : (s.setGroup g).hdr = s.hdr := rfl
@[simp] theorem State.setGroup_cb (g : Group) : (s.setGroup g).cb = s.cb := rfl
@[simp] theorem State.setGroup_mb (g : Group) : (s.setGroup g).mb = s.mb := rfl
@[simp] theorem State.setGroup_sb (g : Group) : (s.setGroup g).sb = s.sb := rfl
@[simp] theorem State.setGroup_cbMax (g : Group) : (s.setGroup g).cbMax = s.cbMax := rfl
@[simp] theorem State.setGroup_mbMax (g : Group) : (s.setGroup g).mbMax = s.mbMax := rfl
@[simp] theorem State.setGroup_sbMax (g : Group) : (s.setGroup g).sbMax = s.sbMax := rfl
@[simp] theorem State.setGroup_script (g : Group) : (s.setGroup g).script = s.script := rfl
@[simp] theorem State.setGroup_seen (g : Group) : (s.setGroup g).seen = s.seen := rfl
@[simp] theorem State.setGroup_mem (g : Group) (sp : Space) : (s.setGroup g).mem sp = s.mem sp := by cases sp <;> rfl
@[simp] theorem State.setGroup_capOf (g : Group) (sp : Space) : (s.setGroup g).capOf sp = s.capOf sp := by cases sp <;> rfl

/-! ### `setBufLen` -/

@[simp] theorem State.setBufLen_cmd (v : Word) : (s.setBufLen v).cmd = s.cmd := rfl
@[simp] theorem State.setBufLen_status (v : Word) : (s.setBufLen v).status = s.status := rfl
@[simp] theorem State.setBufLen_pb (v : Word) : (s.setBufLen v).pb = s.pb := rfl
@[simp] theorem State.setBufLen_fv (v : Word) : (s.setBufLen v).fv = s.fv := rfl
@[simp] theorem State.setBufLen_ch0 (v : Word) : (s.setBufLen v).ch0 = s.ch0 := rfl
@[simp] theorem State.setBufLen_ch1 (v : Word) : (s.setBufLen v).ch1 = s.ch1 := rfl
@[simp] theorem State.setBufLen_ch2 (v : Word) : (s.setBufLen v).ch2 = s.ch2 := rfl
@[simp] theorem State.setBufLen_ch3 (v : Word) : (s.setBufLen v).ch3 = s.ch3 := rfl
@[simp] theorem State.setBufLen_bufLen (v : Word) : (s.setBufLen v).bufLen = v := rfl
@[simp] theorem State.setBufLen_msgLen (v : Word) : (s.setBufLen v).msgLen = s.msgLen := rfl
@[simp] theorem State.setBufLen_strLen (v : Word) : (s.setBufLen v).strLen = s.strLen := rfl
@[simp] theorem State.setBufLen_hmagic (v : Word) : (s.setBufLen v).hmagic = s.hmagic := rfl
@[simp] theorem State.setBufLen_hdr (v : Word) : (s.setBufLen v).hdr = s.hdr := rfl
@[simp] theorem State.setBufLen_cb (v : Word) : (s.setBufLen v).cb = s.cb := rfl
@[simp] theorem State.setBufLen_mb (v : Word) : (s.setBufLen v).mb = s.mb := rfl
@[simp] theorem State.setBufLen_sb (v : Word) : (s.setBufLen v).sb = s.sb := rfl
@[simp] theorem State.setBufLen_cbMax (v : Word) : (s.setBufLen v).cbMax = s.cbMax := rfl
@[simp] theorem State.setBufLen_mbMax (v : Word) : (s.setBufLen v).mbMax = s.mbMax := rfl
@[simp] theorem State.setBufLen_sbMax (v : Word) : (s.setBufLen v).sbMax = s.sbMax := rfl
@[simp] theorem State.setBufLen_script (v : Word) : (s.setBufLen v).script = s.script := rfl
@[simp] theorem State.setBufLen_seen (v : Word) : (s.setBufLen v).seen = s.seen := rfl
@[simp] theorem State.setBufLen_mem (v : Word) (sp : Space) : (s.setBufLen v).mem sp = s.mem sp := by cases sp <;> rfl
@[simp] theorem State.setBufLen_capOf (v : Word) (sp : Space) : (s.setBufLen v).capOf sp = s.capOf sp := by cases sp <;> rfl

/-! ### `setMsgLen` -/

@[simp] theorem State.setMsgLen_cmd (v : Word) : (s.setMsgLen v).cmd = s.cmd := rfl
@[simp] theorem State.setMsgLen_status (v : Word) : (s.setMsgLen v).status = s.status := rfl
@[simp] theorem State.setMsgLen_pb (v : Word) : (s.setMsgLen v).pb = s.pb := rfl
@[simp] theorem State.setMsgLen_fv (v : Word) : (s.setMsgLen v).fv = s.fv := rfl
@[simp] theorem State.setMsgLen_ch0 (v : Word) : (s.setMsgLen v).ch0 = s.ch0 := rfl
@[simp] theorem State.setMsgLen_ch1 (v : Word) : (s.setMsgLen v).ch1 = s.ch1 := rfl
@[simp] theorem State.setMsgLen_ch2 (v : Word) : (s.setMsgLen v).ch2 = s.ch2 := rfl
@[simp] theorem State.setMsgLen_ch3 (v : Word) : (s.setMsgLen v).ch3 = s.ch3 := rfl
@[simp] theorem State.setMsgLen_bufLen (v : Word) : (s.setMsgLen v).bufLen = s.bufLen := rfl
@[simp] theorem State.setMsgLen_msgLen (v : Word) : (s.setMsgLen v).msgLen = v := rfl
@[simp] theorem State.setMsgLen_strLen (v : Word) : (s.setMsgLen v).strLen = s.strLen := rfl
@[simp] theorem State.setMsgLen_hmagic (v : Word) : (s.setMsgLen v).hmagic = s.hmagic := rfl
@[simp] theorem State.setMsgLen_hdr (v : Word) : (s.setMsgLen v).hdr = s.hdr := rfl
@[simp] theorem State.setMsgLen_cb (v : Word) : (s.setMsgLen v).cb = s.cb := rfl
@[simp] theorem State.setMsgLen_mb (v : Word) : (s.setMsgLen v).mb = s.mb := rfl
@[simp] theorem State.setMsgLen_sb (v : Word) : (s.setMsgLen v).sb = s.sb := rfl
@[simp] theorem State.setMsgLen_cbMax (v : Word) : (s.setMsgLen v).cbMax = s.cbMax := rfl
@[simp] theorem State.setMsgLen_mbMax (v : Word) : (s.setMsgLen v).mbMax = s.mbMax := rfl
@[simp] theorem State.setMsgLen_sbMax (v : Word) : (s.setMsgLen v).sbMax = s.sbMax := rfl
@[simp] theorem State.setMsgLen_script (v : Word) : (s.setMsgLen v).script = s.script := rfl
@[simp] theorem State.setMsgLen_seen (v : Word) : (s.setMsgLen v).seen = s.seen := rfl
@[simp] theorem State.setMsgLen_mem (v : Word) (sp : Space) : (s.setMsgLen v).mem sp = s.mem sp := by cases sp <;> rfl
@[simp] theorem State.setMsgLen_capOf (v : Word) (sp : Space) : (s.setMsgLen v).capOf sp = s.capOf sp := by cases sp <;> rfl

/-! ### `setStrLen` -/

@[simp] theorem State.setStrLen_cmd (v : Word) : (s.setStrLen v).cmd = s.cmd := rfl
@[simp] theorem State.setStrLen_status (v : Word) : (s.setStrLen v).status = s.status := rfl
@[simp] theorem State.setStrLen_pb (v : Word) : (s.setStrLen v).pb = s.pb := rfl
@[simp] theorem State.setStrLen_fv (v : Word) : (s.setStrLen v).fv = s.fv := rfl
@[simp] theorem State.setStrLen_ch0 (v : Word) : (s.setStrLen v).ch0 = s.ch0 := rfl
@[simp] theorem State.setStrLen_ch1 (v : Word) : (s.setStrLen v).ch1 = s.ch1 := rfl
@[simp] theorem State.setStrLen_ch2 (v : Word) : (s.setStrLen v).ch2 = s.ch2 := rfl
@[simp] theorem State.setStrLen_ch3 (v : Word) : (s.setStrLen v).ch3 = s.ch3 := rfl
@[simp] theorem State.setStrLen_bufLen (v : Word) : (s.setStrLen v).bufLen = s.bufLen := rfl
@[simp] theorem State.setStrLen_msgLen (v : Word) : (s.setStrLen v).msgLen = s.msgLen := rfl
@[simp] theorem State.setStrLen_strLen (v : Word) : (s.setStrLen v).strLen = v := rfl
@[simp] theorem State.setStrLen_hmagic (v : Word) : (s.setStrLen v).hmagic = s.hmagic := rfl
@[simp] theorem State.setStrLen_hdr (v : Word) : (s.setStrLen v).hdr = s.hdr := rfl
@[simp] theorem State.setStrLen_cb (v : Word) : (s.setStrLen v).cb = s.cb := rfl
@[simp] theorem State.setStrLen_mb (v : Word) : (s.setStrLen v).mb = s.mb := rfl
@[simp] theorem State.setStrLen_sb (v : Word) : (s.setStrLen v).sb = s.sb := rfl
@[simp] theorem State.setStrLen_cbMax (v : Word) : (s.setStrLen v).cbMax = s.cbMax := rfl
@[simp] theorem State.setStrLen_mbMax (v : Word) : (s.setStrLen v).mbMax = s.mbMax := rfl
@[simp] theorem State.setStrLen_sbMax (v : Word) : (s.setStrLen v).sbMax = s.sbMax := rfl
@[simp] theorem State.setStrLen_script (v : Word) : (s.setStrLen v).script = s.script := rfl
@[simp] theorem State.setStrLen_seen (v : Word) : (s.setStrLen v).seen = s.seen := rfl
@[simp] theorem State.setStrLen_mem (v : Word) (sp : Space) : (s.setStrLen v).mem sp = s.mem sp := by cases sp <;> rfl
@[simp] theorem State.setStrLen_capOf (v : Word) (sp : Space) : (s.setStrLen v).capOf sp = s.capOf sp := by cases sp <;> rfl

/-! ### `setHmagic` -/

@[simp] theorem State.setHmagic_cmd (v : Word) : (s.setHmagic v).cmd = s.cmd := rfl
@[simp] theorem State.setHmagic_status (v : Word) : (s.setHmagic v).status = s.status := rfl
@[simp] theorem State.setHmagic_pb (v : Word) : (s.setHmagic v).pb = s.pb := rfl
@[simp] theorem State.setHmagic_fv (v : Word) : (s.setHmagic v).fv = s.fv := rfl
@[simp] theorem State.setHmagic_ch0 (v : Word) : (s.setHmagic v).ch0 = s.ch0 := rfl
@[simp] theorem State.setHmagic_ch1 (v : Word) : (s.setHmagic v).ch1 = s.ch1 := rfl
@[simp] theorem State.setHmagic_ch2 (v : Word) : (s.setHmagic v).ch2 = s.ch2 := rfl
@[simp] theorem State.setHmagic_ch3 (v : Word) : (s.setHmagic v).ch3 = s.ch3 := rfl
@[simp] theorem State.setHmagic_bufLen (v : Word) : (s.setHmagic v).bufLen = s.bufLen := rfl
@[simp] theorem State.setHmagic_msgLen (v : Word) : (s.setHmagic v).msgLen = s.msgLen := rfl
@[simp] theorem State.setHmagic_strLen (v : Word) : (s.setHmagic v).strLen = s.strLen := rfl
@[simp] theorem State.setHmagic_hmagic (v : Word) : (s.setHmagic v).hmagic = v := rfl
@[simp] theorem State.setHmagic_hdr (v : Word) : (s.setHmagic v).hdr = s.hdr := rfl
@[simp] theorem State.setHmagic_cb (v : Word) : (s.setHmagic v).cb = s.cb := rfl
@[simp] theorem State.setHmagic_mb (v : Word) : (s.setHmagic v).mb = s.mb := rfl
@[simp] theorem State.setHmagic_sb (v : Word) : (s.setHmagic v).sb = s.sb := rfl
@[simp] theorem State.setHmagic_cbMax (v : Word) : (s.setHmagic v).cbMax = s.cbMax := rfl
@[simp] theorem State.setHmagic_mbMax (v : Word) : (s.setHmagic v).mbMax = s.mbMax := rfl
@[simp] theorem State.setHmagic_sbMax (v : Word) : (s.setHmagic v).sbMax = s.sbMax := rfl
@[simp] theorem State.setHmagic_script (v : Word) : (s.setHmagic v).script = s.script := rfl
@[simp] theorem State.setHmagic_seen (v : Word) : (s.setHmagic v).seen = s.seen := rfl
@[simp] theorem State.setHmagic_mem (v : Word) (sp : Space) : (s.setHmagic v).mem sp = s.mem sp := by cases sp <;> rfl
@[simp] theorem State.setHmagic_capOf (v : Word) (sp : Space) : (s.setHmagic v).capOf sp = s.capOf sp := by cases sp <;> rfl

/-! ### `setHdr` -/

@[simp] theorem State.setHdr_cmd (v : HdrWord) : (s.setHdr v).cmd = s.cmd := rfl
@[simp] theorem State.setHdr_status (v : HdrWord) : (s.setHdr v).status = s.status := rfl
@[simp] theorem State.setHdr_pb (v : HdrWord) : (s.setHdr v).pb = s.pb := rfl
@[simp] theorem State.setHdr_fv (v : HdrWord) : (s.setHdr v).fv = s.fv := rfl
@[simp] theorem State.setHdr_ch0 (v : HdrWord) : (s.setHdr v).ch0 = s.ch0 := rfl
@[simp] theorem State.setHdr_ch1 (v : HdrWord) : (s.setHdr v).ch1 = s.ch1 := rfl
@[simp] theorem State.setHdr_ch2 (v : HdrWord) : (s.setHdr v).ch2 = s.ch2 := rfl
@[simp] theorem State.setHdr_ch3 (v : HdrWord) : (s.setHdr v).ch3 = s.ch3 := rfl
@[simp] theorem State.setHdr_bufLen (v : HdrWord) : (s.setHdr v).bufLen = s.bufLen := rfl
@[simp] theorem State.setHdr_msgLen (v : HdrWord) : (s.setHdr v).msgLen = s.msgLen := rfl
@[simp] theorem State.setHdr_strLen (v : HdrWord) : (s.setHdr v).strLen = s.strLen := rfl
@[simp] theorem State.setHdr_hmagic (v : HdrWord) : (s.setHdr v).hmagic = s.hmagic := rfl
@[simp] theorem State.setHdr_hdr (v : HdrWord) : (s.setHdr v).hdr = v := rfl
@[simp] theorem State.setHdr_cb (v : HdrWord) : (s.setHdr v).cb = s.cb := rfl
@[simp] theorem State.setHdr_mb (v : HdrWord) : (s.setHdr v).mb = s.mb := rfl
@[simp] theorem State.setHdr_sb (v : HdrWord) : (s.setHdr v).sb = s.sb := rfl
@[simp] theorem State.setHdr_cbMax (v : HdrWord) : (s.setHdr v).cbMax = s.cbMax := rfl
@[simp] theorem State.setHdr_mbMax (v : HdrWord) : (s.setHdr v).mbMax = s.mbMax := rfl
@[simp] theorem State.setHdr_sbMax (v : HdrWord) : (s.setHdr v).sbMax = s.sbMax := rfl
@[simp] theorem State.setHdr_script (v : HdrWord) : (s.setHdr v).script = s.script := rfl
@[simp] theorem State.setHdr_seen (v : HdrWord) : (s.setHdr v).seen = s.seen := rfl
@[simp] theorem State.setHdr_mem (v : HdrWord) (sp : Space) : (s.setHdr v).mem sp = s.mem sp := by cases sp <;> rfl
@[simp] theorem State.setHdr_capOf (v : HdrWord) (sp : Space) : (s.setHdr v).capOf sp = s.capOf sp := by cases sp <;> rfl

/-! ### `setScript` -/

@[simp] theorem State.setScript_cmd (l : List HostAction) : (s.setScript l).cmd = s.cmd := rfl
@[simp] theorem State.setScript_status (l : List HostAction) : (s.setScript l).status = s.status := rfl
@[simp] theorem State.setScript_pb (l : List HostAction) : (s.setScript l).pb = s.pb := rfl
@[simp] theorem State.setScript_fv (l : List HostAction) : (s.setScript l).fv = s.fv := rfl
@[simp] theorem State.setScript_ch0 (l : List HostAction) : (s.setScript l).ch0 = s.ch0 := rfl
@[simp] theorem State.setScript_ch1 (l : List HostAction) : (s.setScript l).ch1 = s.ch1 := rfl
@[simp] theorem State.setScript_ch2 (l : List HostAction) : (s.setScript l).ch2 = s.ch2 := rfl
@[simp] theorem State.setScript_ch3 (l : List HostAction) : (s.setScript l).ch3 = s.ch3 := rfl
@[simp] theorem State.setScript_bufLen (l : List HostAction) : (s.setScript l).bufLen = s.bufLen := rfl
@[simp] theorem State.setScript_msgLen (l : List HostAction) : (s.setScript l).msgLen = s.msgLen := rfl
@[simp] theorem State.setScript_strLen (l : List HostAction) : (s.setScript l).strLen = s.strLen := rfl
@[simp] theorem State.setScript_hmagic (l : List HostAction) : (s.setScript l).hmagic = s.hmagic := rfl
@[simp] theorem State.setScript_hdr (l : List HostAction) : (s.setScript l).hdr = s.hdr := rfl
@[simp] theorem State.setScript_cb (l : List HostAction) : (s.setScript l).cb = s.cb := rfl
@[simp] theorem State.setScript_mb (l : List HostAction) : (s.setScript l).mb = s.mb := rfl
@[simp] theorem State.setScript_sb (l : List HostAction) : (s.setScript l).sb = s.sb := rfl
@[simp] theorem State.setScript_cbMax (l : List HostAction) : (s.setScript l).cbMax = s.cbMax := rfl
@[simp] theorem State.setScript_mbMax (l : List HostAction) : (s.setScript l).mbMax = s.mbMax := rfl
@[simp] theorem State.setScript_sbMax (l : List HostAction) : (s.setScript l).sbMax = s.sbMax := rfl
@[simp] theorem State.setScript_script (l : List HostAction) : (s.setScript l).script = l := rfl
@[simp] theorem State.setScript_seen (l : List HostAction) : (s.setScript l).seen = s.seen := rfl
@[simp] theorem State.setScript_mem (l : List HostAction) (sp : Space) : (s.setScript l).mem sp = s.mem sp := by cases sp <;> rfl
@[simp] theorem State.setScript_capOf (l : List HostAction) (sp : Space) : (s.setScript l).capOf sp = s.capOf sp := by cases sp <;> rfl

/-! ### `note` -/

@[simp] theorem State.note_cmd (d : HostDatum) : (s.note d).cmd = s.cmd := rfl
@[simp] theorem State.note_status (d : HostDatum) : (s.note d).status = s.status := rfl
@[simp] theorem State.note_pb (d : HostDatum) : (s.note d).pb = s.pb := rfl
@[simp] theorem State.note_fv (d : HostDatum) : (s.note d).fv = s.fv := rfl
@[simp] theorem State.note_ch0 (d : HostDatum) : (s.note d).ch0 = s.ch0 := rfl
@[simp] theorem State.note_ch1 (d : HostDatum) : (s.note d).ch1 = s.ch1 := rfl
@[simp] theorem State.note_ch2 (d : HostDatum) : (s.note d).ch2 = s.ch2 := rfl
@[simp] theorem State.note_ch3 (d : HostDatum) : (s.note d).ch3 = s.ch3 := rfl
@[simp] theorem State.note_bufLen (d : HostDatum) : (s.note d).bufLen = s.bufLen := rfl
@[simp] theorem State.note_msgLen (d : HostDatum) : (s.note d).msgLen = s.msgLen := rfl
@[simp] theorem State.note_strLen (d : HostDatum) : (s.note d).strLen = s.strLen := rfl
@[simp] theorem State.note_hmagic (d : HostDatum) : (s.note d).hmagic = s.hmagic := rfl
@[simp] theorem State.note_hdr (d : HostDatum) : (s.note d).hdr = s.hdr := rfl
@[simp] theorem State.note_cb (d : HostDatum) : (s.note d).cb = s.cb := rfl
@[simp] theorem State.note_mb (d : HostDatum) : (s.note d).mb = s.mb := rfl
@[simp] theorem State.note_sb (d : HostDatum) : (s.note d).sb = s.sb := rfl
@[simp] theorem State.note_cbMax (d : HostDatum) : (s.note d).cbMax = s.cbMax := rfl
@[simp] theorem State.note_mbMax (d : HostDatum) : (s.note d).mbMax = s.mbMax := rfl
@[simp] theorem State.note_sbMax (d : HostDatum) : (s.note d).sbMax = s.sbMax := rfl
@[simp] theorem State.note_script (d : HostDatum) : (s.note d).script = s.script := rfl
@[simp] theorem State.note_seen (d : HostDatum) : (s.note d).seen = d :: s.seen := rfl
@[simp] theorem State.note_mem (d : HostDatum) (sp : Space) : (s.note d).mem sp = s.mem sp := by cases sp <;> rfl
@[simp] theorem State.note_capOf (d : HostDatum) (sp : Space) : (s.note d).capOf sp = s.capOf sp := by cases sp <;> rfl

/-! ### `setMem` -/

@[simp] theorem State.setMem_cmd (sp : Space) (m : Mem) : (s.setMem sp m).cmd = s.cmd := by cases sp <;> rfl
@[simp] theorem State.setMem_status (sp : Space) (m : Mem) : (s.setMem sp m).status = s.status := by cases sp <;> rfl
@[simp] theorem State.setMem_pb (sp : Space) (m : Mem) : (s.setMem sp m).pb = s.pb := by cases sp <;> rfl
@[simp] theorem State.setMem_fv (sp : Space) (m : Mem) : (s.setMem sp m).fv = s.fv := by cases sp <;> rfl
@[simp] theorem State.setMem_ch0 (sp : Space) (m : Mem) : (s.setMem sp m).ch0 = s.ch0 := by cases sp <;> rfl
@[simp] theorem State.setMem_ch1 (sp : Space) (m : Mem) : (s.setMem sp m).ch1 = s.ch1 := by cases sp <;> rfl
@[simp] theorem State.setMem_ch2 (sp : Space) (m : Mem) : (s.setMem sp m).ch2 = s.ch2 := by cases sp <;> rfl
@[simp] theorem State.setMem_ch3 (sp : Space) (m : Mem) : (s.setMem sp m).ch3 = s.ch3 := by cases sp <;> rfl
@[simp] theorem State.setMem_bufLen (sp : Space) (m : Mem) : (s.setMem sp m).bufLen = s.bufLen := by cases sp <;> rfl
@[simp] theorem State.setMem_msgLen (sp : Space) (m : Mem) : (s.setMem sp m).msgLen = s.msgLen := by cases sp <;> rfl
@[simp] theorem State.setMem_strLen (sp : Space) (m : Mem) : (s.setMem sp m).strLen = s.strLen := by cases sp <;> rfl
@[simp] theorem State.setMem_hmagic (sp : Space) (m : Mem) : (s.setMem sp m).hmagic = s.hmagic := by cases sp <;> rfl
@[simp] theorem State.setMem_hdr (sp : Space) (m : Mem) : (s.setMem sp m).hdr = s.hdr := by cases sp <;> rfl
@[simp] theorem State.setMem_cb_cb (m : Mem) : (s.setMem .cb m).cb = m := rfl
@[simp] theorem State.setMem_mb_cb (m : Mem) : (s.setMem .mb m).cb = s.cb := rfl
@[simp] theorem State.setMem_sb_cb (m : Mem) : (s.setMem .sb m).cb = s.cb := rfl
@[simp] theorem State.setMem_cb_mb (m : Mem) : (s.setMem .cb m).mb = s.mb := rfl
@[simp] theorem State.setMem_mb_mb (m : Mem) : (s.setMem .mb m).mb = m := rfl
@[simp] theorem State.setMem_sb_mb (m : Mem) : (s.setMem .sb m).mb = s.mb := rfl
@[simp] theorem State.setMem_cb_sb (m : Mem) : (s.setMem .cb m).sb = s.sb := rfl
@[simp] theorem State.setMem_mb_sb (m : Mem) : (s.setMem .mb m).sb = s.sb := rfl
@[simp] theorem State.setMem_sb_sb (m : Mem) : (s.setMem .sb m).sb = m := rfl
@[simp] theorem State.setMem_cbMax (sp : Space) (m : Mem) : (s.setMem sp m).cbMax = s.cbMax := by cases sp <;> rfl
@[simp] theorem State.setMem_mbMax (sp : Space) (m : Mem) : (s.setMem sp m).mbMax = s.mbMax := by cases sp <;> rfl
@[simp] theorem State.setMem_sbMax (sp : Space) (m : Mem) : (s.setMem sp m).sbMax = s.sbMax := by cases sp <;> rfl
@[simp] theorem State.setMem_script (sp : Space) (m : Mem) : (s.setMem sp m).script = s.script := by cases sp <;> rfl
@[simp] theorem State.setMem_seen (sp : Space) (m : Mem) : (s.setMem sp m).seen = s.seen := by cases sp <;> rfl
@[simp] theorem State.setMem_capOf (sp sp' : Space) (m : Mem) : (s.setMem sp m).capOf sp' = s.capOf sp' := by
  cases sp <;> cases sp' <;> rfl
@[simp] theorem State.setMem_mem_self (sp : Space) (m : Mem) : (s.setMem sp m).mem sp = m := by cases sp <;> rfl
theorem State.setMem_mem_of_ne (sp sp' : Space) (m : Mem) (h : sp' ≠ sp) : (s.setMem sp m).mem sp' = s.mem sp' := by
  cases sp <;> cases sp' <;> first | rfl | exact absurd rfl h
theorem State.setMem_mem (sp sp' : Space) (m : Mem) : (s.setMem sp m).mem sp' = if sp' = sp then m else s.mem sp' := by
  cases sp <;> cases sp' <;> rfl

/-! ### The accessors -/

@[simp] theorem State.mem_cb : s.mem .cb = s.cb := rfl
@[simp] theorem State.mem_mb : s.mem .mb = s.mb := rfl
@[simp] theorem State.mem_sb : s.mem .sb = s.sb := rfl
@[simp] theorem State.capOf_cb : s.capOf .cb = s.cbMax := rfl
@[simp] theorem State.capOf_mb : s.capOf .mb = s.mbMax := rfl
@[simp] theorem State.capOf_sb : s.capOf .sb = s.sbMax := rfl
@[simp] theorem State.group_c0 : s.group.c0 = s.ch0 := rfl
@[simp] theorem State.group_c1 : s.group.c1 = s.ch1 := rfl
@[simp] theorem State.group_c2 : s.group.c2 = s.ch2 := rfl
@[simp] theorem State.group_c3 : s.group.c3 = s.ch3 := rfl
@[simp] theorem State.setGroup_group (g : Group) : (s.setGroup g).group = g := rfl

end Sys2Proof.Machine
end

