-- ==== Sys2Proof/Laws/Ops.lean ====
section
/-! SUPPORT. Once for each shared operation: everything it can do. -/

namespace Sys2Proof.Machine

/-! ### Sequencing -/

@[simp] theorem andThen_next {α β : Type} (a : α) (f : α → Result β) : andThen (.next a) f = f a := rfl
@[simp] theorem andThen_fault {α β : Type} (e : Fault) (f : α → Result β) : andThen (.fault e) f = .fault e := rfl
@[simp] theorem andThen_refused {α β : Type} (e : Refusal) (f : α → Result β) : andThen (.refused e) f = .refused e := rfl

theorem andThen_eq_next_iff {α β : Type} {r : Result α} {f : α → Result β} {b : β} :
    andThen r f = .next b ↔ ∃ a, r = .next a ∧ f a = .next b := by
  cases r with
  | next a => simp
  | fault e => simp
  | refused e => simp

/-! ### Access to a space -/

theorem inMemory_iff {s : State} {sp : Space} {a n : Nat} :
    inMemory s sp a n = true ↔ n = 0 ∨ a + n ≤ s.capOf sp := by
  simp [inMemory]

theorem memRead_eq_next_iff {s : State} {sp : Space} {a n : Nat} {bs : List Byte} :
    memRead s sp a n = .next bs ↔ inMemory s sp a n = true ∧ (s.mem sp).readBytes a n = some bs := by
  unfold memRead
  split
  · rename_i h
    cases (s.mem sp).readBytes a n <;> simp [h]
  · rename_i h
    simp [h]

theorem memWrite_eq_next_iff {s t : State} {sp : Space} {a : Nat} {bs : List Byte} :
    memWrite s sp a bs = .next t ↔
      inMemory s sp a bs.length = true ∧ t = s.setMem sp ((s.mem sp).writeBytes a bs) := by
  unfold memWrite
  split
  · rename_i h
    simp only [h, true_and]
    constructor
    · intro ht; cases ht; rfl
    · rintro rfl; rfl
  · rename_i h
    simp [h]

theorem memRead_length {s : State} {sp : Space} {a n : Nat} {bs : List Byte} (h : memRead s sp a n = .next bs) :
    bs.length = n := Mem.readBytes_length (memRead_eq_next_iff.1 h).2

/-- What a read answers is what each byte reads as. -/
theorem memRead_get {s : State} {sp : Space} {a n : Nat} {bs : List Byte} (h : memRead s sp a n = .next bs) {j : Nat}
    (hj : j < n) : (s.mem sp).read (a + j) = bs[j]? := Mem.readBytes_get (memRead_eq_next_iff.1 h).2 hj

/-- A read of bytes that are all there answers. -/
theorem memRead_of_hasBytes {s : State} {sp : Space} {a k n : Nat} (h : HasBytes s sp n) (hk : a + k ≤ n) :
    ∃ bs, memRead s sp a k = .next bs := by
  obtain ⟨bs, hbs⟩ := (Mem.readBytes_isSome_iff (m := s.mem sp) (a := a) (n := k)).2
    fun j hj => (h (a + j) (by omega)).2
  refine ⟨bs, memRead_eq_next_iff.2 ⟨inMemory_iff.2 ?_, hbs⟩⟩
  rcases Nat.eq_zero_or_pos k with hz | hz
  · exact .inl hz
  · have := (h (a + (k - 1)) (by omega)).1
    omega

theorem memWrite_of_hasRoom {s : State} {sp : Space} {bs : List Byte} (h : bs.length ≤ s.capOf sp) :
    memWrite s sp 0 bs = .next (s.setMem sp ((s.mem sp).writeBytes 0 bs)) :=
  memWrite_eq_next_iff.2 ⟨inMemory_iff.2 (by omega), rfl⟩

/-- What an operation does when the lengths are true. -/
theorem needRoom_of_room {α : Type} {s : State} {sp : Space} {n : Nat} (h : HasRoom s sp n) (r : Result α) :
    needRoom s sp n r = r := if_pos h

theorem needRoom_of_less {α : Type} {s : State} {sp : Space} {n : Nat} (h : s.capOf sp < n) (r : Result α) :
    needRoom s sp n r = .fault (.beyondMemory sp) := if_neg (Nat.not_le_of_lt h)

theorem needRoom_eq_next_iff {α : Type} {s : State} {sp : Space} {n : Nat} {r : Result α} {a : α} :
    needRoom s sp n r = .next a ↔ HasRoom s sp n ∧ r = .next a := by
  unfold needRoom
  split <;> rename_i h <;> simp [h]

/-- A read that answers shows the room it needs. -/
theorem hasRoom_of_memRead {s : State} {sp : Space} {n : Nat} {bs : List Byte} (h : memRead s sp 0 n = .next bs) :
    HasRoom s sp n := by
  have := inMemory_iff.1 (memRead_eq_next_iff.1 h).1
  simp only [HasRoom]
  omega

/-! ### The end of an operation -/

@[simp] theorem done_eq (s : State) : done s = .next (s.setStatus 0x01) := rfl
@[simp] theorem raise_eq (c : Code) (s : State) : raise c s = .next (s.setStatus c.byte) := rfl

@[simp] theorem Code.byte_ok : Code.ok.byte = 0x01 := rfl
@[simp] theorem Code.byte_capacityError : Code.capacityError.byte = 0x02 := rfl
@[simp] theorem Code.byte_notEncoded : Code.notEncoded.byte = 0x03 := rfl
@[simp] theorem Code.byte_formatError : Code.formatError.byte = 0x04 := rfl
@[simp] theorem Code.byte_illegalOp : Code.illegalOp.byte = 0x05 := rfl
@[simp] theorem Code.byte_badOperand : Code.badOperand.byte = 0x06 := rfl

theorem Code.byte_legal (c : Code) : statusLegal c.byte := by cases c <;> decide

theorem Code.byte_injective {c d : Code} (h : c.byte = d.byte) : c = d := by
  cases c <;> cases d <;> first | rfl | exact absurd h (by decide)

/-! ### The invariant -/

theorem State.inv_iff {s : State} : s.Inv ↔ statusLegal s.status ∧ ∀ sp, s.SpaceInv sp := by
  constructor
  · rintro ⟨h, hc, hm, hs⟩
    refine ⟨h, fun sp => ?_⟩
    cases sp <;> assumption
  · rintro ⟨h, hsp⟩
    exact ⟨h, hsp .cb, hsp .mb, hsp .sb⟩

theorem State.Inv.setStatus {s : State} (h : s.Inv) (c : Code) : (s.setStatus c.byte).Inv := by
  obtain ⟨-, hsp⟩ := State.inv_iff.1 h
  exact State.inv_iff.2 ⟨c.byte_legal, fun sp => by simpa [State.SpaceInv] using hsp sp⟩

/-- A write of memory keeps every space sound. -/
theorem State.Inv.memWrite {s t : State} {sp : Space} {a : Nat} {bs : List Byte} (h : s.Inv)
    (hw : Machine.memWrite s sp a bs = .next t) : t.Inv := by
  obtain ⟨hin, rfl⟩ := memWrite_eq_next_iff.1 hw
  obtain ⟨hst, hsp⟩ := State.inv_iff.1 h
  refine State.inv_iff.2 ⟨by simpa using hst, fun sp' => ?_⟩
  obtain ⟨hwf, hb, hc⟩ := hsp sp'
  by_cases he : sp' = sp
  · subst he
    refine ⟨by simpa using Mem.writeBytes_wf hwf a bs, ?_, by simpa using hc⟩
    have := inMemory_iff.1 hin
    simpa using Mem.writeBytes_below hb (this.imp_left List.length_eq_zero_iff.1)
  · simpa [State.SpaceInv, State.setMem_mem_of_ne s sp sp' _ he] using ⟨hwf, hb, hc⟩

end Sys2Proof.Machine
end

