-- ==== Sys2Proof/Laws/Exec.lean ====
section
/-! SUPPORT. Once for each meaning: everything it can do if it answers a next state. Then what a command, a host action
and a step can do. -/

namespace Sys2Proof.Machine

/-! ### FEXT2, FINS2 -/

theorem execFext2_of_legal {ofs : BitVec 3} (h : OfsLegal ofs) (s : State) :
    execFext2 ofs s = .next ((s.setFv (extractField s.pb ofs.toNat Config.fieldW h)).setStatus 0x01) := dif_pos h

theorem execFext2_of_illegal {ofs : BitVec 3} (h : ¬ OfsLegal ofs) (s : State) :
    execFext2 ofs s = .next (s.setStatus 0x06) := dif_neg h

theorem execFins2_of_legal {ofs : BitVec 3} (h : OfsLegal ofs) (s : State) :
    execFins2 ofs s = .next ((s.setPb (insertField s.pb ofs.toNat Config.fieldW s.fv h)).setStatus 0x01) := dif_pos h

theorem execFins2_of_illegal {ofs : BitVec 3} (h : ¬ OfsLegal ofs) (s : State) :
    execFins2 ofs s = .next (s.setStatus 0x06) := dif_neg h

theorem execFext2_next {ofs : BitVec 3} {s t : State} (h : execFext2 ofs s = .next t) :
    t = s.setStatus 0x06 ∨ ∃ v, t = (s.setFv v).setStatus 0x01 := by
  by_cases hl : OfsLegal ofs
  · rw [execFext2_of_legal hl] at h
    cases h
    exact .inr ⟨_, rfl⟩
  · rw [execFext2_of_illegal hl] at h
    cases h
    exact .inl rfl

theorem execFins2_next {ofs : BitVec 3} {s t : State} (h : execFins2 ofs s = .next t) :
    t = s.setStatus 0x06 ∨ ∃ v, t = (s.setPb v).setStatus 0x01 := by
  by_cases hl : OfsLegal ofs
  · rw [execFins2_of_legal hl] at h
    cases h
    exact .inr ⟨_, rfl⟩
  · rw [execFins2_of_illegal hl] at h
    cases h
    exact .inl rfl

/-! ### GDEC, GENC, HSER, HPAR -/

theorem execGdec_eq (s : State) : execGdec s = .next ((s.setPb (decodeGroup s.group)).setStatus 0x01) := rfl

theorem execGenc_eq (s : State) : execGenc s = .next ((s.setGroup (encodeGroup s.pb s.group)).setStatus 0x01) := rfl

theorem execHser_eq (s : State) :
    execHser s = .next ((s.setHdr (hdrOfBytes (serializeHeader s.msgLen))).setStatus 0x01) := rfl

theorem execHpar_eq (s : State) :
    execHpar s = .next (((s.setHmagic (parseHeader (hdrBytes s.hdr)).1).setMsgLen
      (parseHeader (hdrBytes s.hdr)).2).setStatus 0x01) := rfl

theorem execGdec_next {s t : State} (h : execGdec s = .next t) :
    t = (s.setPb (decodeGroup s.group)).setStatus 0x01 := by
  rw [execGdec_eq] at h
  exact (Host.Outcome.next.inj h).symm

theorem execGenc_next {s t : State} (h : execGenc s = .next t) :
    t = (s.setGroup (encodeGroup s.pb s.group)).setStatus 0x01 := by
  rw [execGenc_eq] at h
  exact (Host.Outcome.next.inj h).symm

theorem execHser_next {s t : State} (h : execHser s = .next t) :
    t = (s.setHdr (hdrOfBytes (serializeHeader s.msgLen))).setStatus 0x01 := by
  rw [execHser_eq] at h
  exact (Host.Outcome.next.inj h).symm

theorem execHpar_next {s t : State} (h : execHpar s = .next t) :
    t = ((s.setHmagic (parseHeader (hdrBytes s.hdr)).1).setMsgLen (parseHeader (hdrBytes s.hdr)).2).setStatus 0x01 := by
  rw [execHpar_eq] at h
  exact (Host.Outcome.next.inj h).symm

/-! ### SRD, SWR -/

/-- What SRD does when the memories are long enough and the bytes it reads are there. -/
theorem execSrd_of_reads {s : State} (hc : HasRoom s .cb s.bufLen.toNat) (hr : HasRoom s .sb (capacity s)) {B : List Byte}
    (hB : memRead s .cb 0 (groupAddr (capacity s)) = .next B) :
    (readStream B).length = capacity s ∧
      execSrd s = .next (((s.setMem .sb (s.sb.writeBytes 0 (readStream B))).setStrLen
        (BitVec.ofNat 64 (capacity s))).setStatus 0x01) := by
  have hl : (readStream B).length = capacity s := by
    rw [readStream_length, memRead_length hB, groupAddr]
    simp
  refine ⟨hl, ?_⟩
  rw [execSrd, needRoom_of_room hc, needRoom_of_room hr, hB, andThen_next, memWrite_of_hasRoom (by rw [hl]; exact hr)]
  rfl

theorem execSrd_room {s t : State} (h : execSrd s = .next t) :
    HasRoom s .cb s.bufLen.toNat ∧ HasRoom s .sb (capacity s) := by
  obtain ⟨hc, h⟩ := needRoom_eq_next_iff.1 h
  exact ⟨hc, (needRoom_eq_next_iff.1 h).1⟩

theorem execSrd_next {s t : State} (h : execSrd s = .next t) :
    ∃ B, memRead s .cb 0 (groupAddr (capacity s)) = .next B ∧ inMemory s .sb 0 (readStream B).length = true ∧
      t = ((s.setMem .sb (s.sb.writeBytes 0 (readStream B))).setStrLen
        (BitVec.ofNat 64 (capacity s))).setStatus 0x01 := by
  obtain ⟨-, h⟩ := needRoom_eq_next_iff.1 h
  obtain ⟨-, h⟩ := needRoom_eq_next_iff.1 h
  obtain ⟨B, hB, h⟩ := andThen_eq_next_iff.1 h
  obtain ⟨u, hu, h⟩ := andThen_eq_next_iff.1 h
  obtain ⟨hin, rfl⟩ := memWrite_eq_next_iff.1 hu
  cases h
  exact ⟨B, hB, hin, rfl⟩

theorem execSwr_of_bad {s : State} (h : s.bufLen.toNat < groupAddr s.strLen.toNat) :
    execSwr s = .next (s.setStatus 0x06) := if_pos h

theorem execSwr_of_good {s : State} (h : ¬ s.bufLen.toNat < groupAddr s.strLen.toNat) :
    execSwr s = needRoom s .cb s.bufLen.toNat (needRoom s .sb s.strLen.toNat
      (andThen (memRead s .sb 0 s.strLen.toNat) fun S =>
        andThen (memRead s .cb 0 (groupAddr s.strLen.toNat)) fun B =>
          match writeStream B S with
          | some B' => andThen (memWrite s .cb 0 B') done
          | none => raise .badOperand s)) := if_neg h

/-- What SWR does when the precondition holds, the buffer is as long as it says, and the bytes it reads are there. -/
theorem execSwr_of_reads {s : State} (h : ¬ s.bufLen.toNat < groupAddr s.strLen.toNat)
    (hc : HasRoom s .cb s.bufLen.toNat) {S B : List Byte}
    (hS : memRead s .sb 0 s.strLen.toNat = .next S) (hB : memRead s .cb 0 (groupAddr s.strLen.toNat) = .next B) :
    ∃ B', writeStream B S = some B' ∧ B'.length = groupAddr s.strLen.toNat ∧
      execSwr s = .next ((s.setMem .cb (s.cb.writeBytes 0 B')).setStatus 0x01) := by
  have hl := memRead_length hB
  obtain ⟨B', hB'⟩ := writeStream_isSome_iff.2 (show 4 * S.length ≤ B.length by
    rw [hl, memRead_length hS]; exact Nat.le_refl _)
  have hl' := (writeStream_length hB').trans hl
  refine ⟨B', hB', hl', ?_⟩
  have hin := (memRead_eq_next_iff.1 hB).1
  rw [← hl'] at hin
  rw [execSwr_of_good h, needRoom_of_room hc, needRoom_of_room (hasRoom_of_memRead hS), hS, andThen_next, hB,
    andThen_next, hB']
  exact andThen_eq_next_iff.2 ⟨_, memWrite_eq_next_iff.2 ⟨hin, rfl⟩, rfl⟩

theorem execSwr_room {s t : State} (h : execSwr s = .next t) (hb : ¬ s.bufLen.toNat < groupAddr s.strLen.toNat) :
    HasRoom s .cb s.bufLen.toNat ∧ HasRoom s .sb s.strLen.toNat := by
  rw [execSwr_of_good hb] at h
  obtain ⟨hc, h⟩ := needRoom_eq_next_iff.1 h
  exact ⟨hc, (needRoom_eq_next_iff.1 h).1⟩

theorem execSwr_next {s t : State} (h : execSwr s = .next t) :
    (s.bufLen.toNat < groupAddr s.strLen.toNat ∧ t = s.setStatus 0x06) ∨
    (¬ s.bufLen.toNat < groupAddr s.strLen.toNat ∧ ∃ S B B', memRead s .sb 0 s.strLen.toNat = .next S ∧
      memRead s .cb 0 (groupAddr s.strLen.toNat) = .next B ∧ writeStream B S = some B' ∧
      B'.length = groupAddr s.strLen.toNat ∧ t = (s.setMem .cb (s.cb.writeBytes 0 B')).setStatus 0x01) := by
  by_cases hb : s.bufLen.toNat < groupAddr s.strLen.toNat
  · rw [execSwr_of_bad hb] at h
    cases h
    exact .inl ⟨hb, rfl⟩
  · have h' := h
    rw [execSwr_of_good hb] at h'
    obtain ⟨hc, h'⟩ := needRoom_eq_next_iff.1 h'
    obtain ⟨-, h'⟩ := needRoom_eq_next_iff.1 h'
    obtain ⟨S, hS, h'⟩ := andThen_eq_next_iff.1 h'
    obtain ⟨B, hB, -⟩ := andThen_eq_next_iff.1 h'
    obtain ⟨B', hB', hl, he⟩ := execSwr_of_reads hb hc hS hB
    rw [he] at h
    cases h
    exact .inr ⟨hb, S, B, B', hS, hB, hB', hl, rfl⟩

/-! ### EMBED, EXTRACT -/

theorem execEmbed_of_bad {s : State} (h : capacity s < streamLen s.msgLen) :
    execEmbed s = .next (s.setStatus 0x02) := if_pos h

theorem execEmbed_of_good {s : State} (h : ¬ capacity s < streamLen s.msgLen) :
    execEmbed s = needRoom s .cb s.bufLen.toNat (needRoom s .mb s.msgLen.toNat
      (andThen (memRead s .cb 0 (groupAddr (streamLen s.msgLen))) fun B =>
        andThen (memRead s .mb 0 s.msgLen.toNat) fun M =>
          match embed B M with
          | some B' => andThen (memWrite s .cb 0 B') done
          | none => raise .capacityError s)) := if_neg h

/-- What EMBED does when the message fits, the buffer is as long as it says, and the bytes it reads are there. -/
theorem execEmbed_of_reads {s : State} (h : ¬ capacity s < streamLen s.msgLen) (hc : HasRoom s .cb s.bufLen.toNat)
    {B M : List Byte}
    (hB : memRead s .cb 0 (groupAddr (streamLen s.msgLen)) = .next B) (hM : memRead s .mb 0 s.msgLen.toNat = .next M) :
    ∃ B', writeStream B (serializeHeader s.msgLen ++ M) = some B' ∧ embed B M = some B' ∧
      B'.length = groupAddr (streamLen s.msgLen) ∧
      execEmbed s = .next ((s.setMem .cb (s.cb.writeBytes 0 B')).setStatus 0x01) := by
  have hlB := memRead_length hB
  have hlM := memRead_length hM
  have hfit : ¬ B.length / 4 < 16 + M.length := by
    rw [hlB, hlM]; simp only [groupAddr, streamLen, Config.groupN, Config.headerSize]; omega
  obtain ⟨B', hB'⟩ := writeStream_isSome_iff.2 (show 4 * (serializeHeader s.msgLen ++ M).length ≤ B.length by
    rw [hlB, List.length_append, serializeHeader_length, hlM]; exact Nat.le_refl _)
  have he : embed B M = some B' := by
    rw [embed_of_fits hfit, hlM, BitVec.ofNat_toNat, BitVec.setWidth_eq, hB']
  have hl' := (writeStream_length hB').trans hlB
  refine ⟨B', hB', he, hl', ?_⟩
  have hin := (memRead_eq_next_iff.1 hB).1
  rw [← hl'] at hin
  rw [execEmbed_of_good h, needRoom_of_room hc, needRoom_of_room (hasRoom_of_memRead hM), hB, andThen_next, hM,
    andThen_next, he]
  exact andThen_eq_next_iff.2 ⟨_, memWrite_eq_next_iff.2 ⟨hin, rfl⟩, rfl⟩

theorem execEmbed_room {s t : State} (h : execEmbed s = .next t) (hb : ¬ capacity s < streamLen s.msgLen) :
    HasRoom s .cb s.bufLen.toNat ∧ HasRoom s .mb s.msgLen.toNat := by
  rw [execEmbed_of_good hb] at h
  obtain ⟨hc, h⟩ := needRoom_eq_next_iff.1 h
  exact ⟨hc, (needRoom_eq_next_iff.1 h).1⟩

theorem execEmbed_next {s t : State} (h : execEmbed s = .next t) :
    (capacity s < streamLen s.msgLen ∧ t = s.setStatus 0x02) ∨
    (¬ capacity s < streamLen s.msgLen ∧ ∃ B M B', memRead s .cb 0 (groupAddr (streamLen s.msgLen)) = .next B ∧
      memRead s .mb 0 s.msgLen.toNat = .next M ∧ writeStream B (serializeHeader s.msgLen ++ M) = some B' ∧
      embed B M = some B' ∧ B'.length = groupAddr (streamLen s.msgLen) ∧
      t = (s.setMem .cb (s.cb.writeBytes 0 B')).setStatus 0x01) := by
  by_cases hb : capacity s < streamLen s.msgLen
  · rw [execEmbed_of_bad hb] at h
    cases h
    exact .inl ⟨hb, rfl⟩
  · have h' := h
    rw [execEmbed_of_good hb] at h'
    obtain ⟨hc, h'⟩ := needRoom_eq_next_iff.1 h'
    obtain ⟨-, h'⟩ := needRoom_eq_next_iff.1 h'
    obtain ⟨B, hB, h'⟩ := andThen_eq_next_iff.1 h'
    obtain ⟨M, hM, -⟩ := andThen_eq_next_iff.1 h'
    obtain ⟨B', hB', hm, hl, he⟩ := execEmbed_of_reads hb hc hB hM
    rw [he] at h
    cases h
    exact .inr ⟨hb, B, M, B', hB, hM, hB', hm, hl, rfl⟩

theorem execExtract_room {s t : State} (h : execExtract s = .next t) :
    HasRoom s .cb s.bufLen.toNat ∧ HasRoom s .mb (capacity s - 16) := by
  obtain ⟨hc, h⟩ := needRoom_eq_next_iff.1 h
  exact ⟨hc, (needRoom_eq_next_iff.1 h).1⟩

theorem execExtract_of_short {s : State} (hc : HasRoom s .cb s.bufLen.toNat) (h : capacity s < 16) :
    execExtract s = .next (s.setStatus 0x03) := by
  have hm : HasRoom s .mb (capacity s - Config.headerSize) := by
    simp only [HasRoom, Config.headerSize]; omega
  rw [execExtract, needRoom_of_room hc, needRoom_of_room hm]
  exact if_pos h

theorem execExtract_of_long {s : State} (hc : HasRoom s .cb s.bufLen.toNat) (hm : HasRoom s .mb (capacity s - 16))
    (h : ¬ capacity s < 16) :
    execExtract s = andThen (memRead s .cb 0 (groupAddr Config.headerSize)) fun H =>
      match headerVerdict (capacity s) (parseHeader (readStream H)).1 (parseHeader (readStream H)).2 with
      | some e => raise e s
      | none =>
        andThen (memRead s .cb (groupAddr Config.headerSize) (groupAddr (parseHeader (readStream H)).2.toNat)) fun B =>
          andThen (memWrite s .mb 0 (readStream B)) fun t => done (t.setMsgLen (parseHeader (readStream H)).2) := by
  rw [execExtract, needRoom_of_room hc, needRoom_of_room hm]
  exact if_neg h

theorem headerVerdict_eq_some {a : Nat} {m l : Word} {c : Code} (h : headerVerdict a m l = some c) :
    (m ≠ Config.magic ∧ c = .notEncoded) ∨ (m = Config.magic ∧ a < streamLen l ∧ c = .formatError) := by
  unfold headerVerdict at h
  split at h
  · rename_i hm
    cases h
    exact .inl ⟨hm, rfl⟩
  · rename_i hm
    split at h
    · rename_i ha
      cases h
      exact .inr ⟨not_not.1 hm, ha, rfl⟩
    · cases h

theorem headerVerdict_eq_none {a : Nat} {m l : Word} :
    headerVerdict a m l = none ↔ m = Config.magic ∧ ¬ a < streamLen l := by
  unfold headerVerdict
  by_cases hm : m = Config.magic <;> by_cases ha : a < streamLen l <;> simp [hm, ha]

/-- EXTRACT fails with STATUS alone changed, or writes the message and its length. -/
theorem execExtract_next {s t : State} (h : execExtract s = .next t) :
    (t = s.setStatus 0x03 ∨ t = s.setStatus 0x04) ∨
    (¬ capacity s < 16 ∧ ∃ H B l, memRead s .cb 0 (groupAddr Config.headerSize) = .next H ∧
      parseHeader (readStream H) = (Config.magic, l) ∧ ¬ capacity s < streamLen l ∧
      memRead s .cb (groupAddr Config.headerSize) (groupAddr l.toNat) = .next B ∧
      inMemory s .mb 0 (readStream B).length = true ∧ (readStream B).length = l.toNat ∧
      t = ((s.setMem .mb (s.mb.writeBytes 0 (readStream B))).setMsgLen l).setStatus 0x01) := by
  obtain ⟨hc, hm⟩ := execExtract_room h
  by_cases hs : capacity s < 16
  · rw [execExtract_of_short hc hs] at h
    cases h
    exact .inl (.inl rfl)
  · rw [execExtract_of_long hc hm hs] at h
    obtain ⟨H, hH, h⟩ := andThen_eq_next_iff.1 h
    cases hv : headerVerdict (capacity s) (parseHeader (readStream H)).1 (parseHeader (readStream H)).2 with
    | some c =>
      rw [hv] at h
      rcases headerVerdict_eq_some hv with ⟨-, rfl⟩ | ⟨-, -, rfl⟩
      · cases h
        exact .inl (.inl rfl)
      · cases h
        exact .inl (.inr rfl)
    | none =>
      rw [hv] at h
      obtain ⟨hm, hl⟩ := headerVerdict_eq_none.1 hv
      obtain ⟨B, hB, h⟩ := andThen_eq_next_iff.1 h
      obtain ⟨u, hu, h⟩ := andThen_eq_next_iff.1 h
      obtain ⟨hin, rfl⟩ := memWrite_eq_next_iff.1 hu
      cases h
      refine .inr ⟨hs, H, B, _, hH, Prod.ext hm rfl, hl, hB, hin, ?_, rfl⟩
      rw [readStream_length, memRead_length hB, groupAddr]
      simp

/-! ### What any operation can do -/

/-- An operation that answers leaves in STATUS a code of R171 other than IDLE. -/
theorem exec_status {i : Instr} {s t : State} (h : exec i s = .next t) : 1 ≤ t.status.toNat ∧ t.status.toNat ≤ 6 := by
  cases i with
  | fext2 ofs => rcases execFext2_next h with rfl | ⟨v, rfl⟩ <;> simp
  | fins2 ofs => rcases execFins2_next h with rfl | ⟨v, rfl⟩ <;> simp
  | gdec => rw [execGdec_next h]; simp
  | genc => rw [execGenc_next h]; simp
  | srd => obtain ⟨B, -, -, rfl⟩ := execSrd_next h; simp
  | swr => rcases execSwr_next h with ⟨-, rfl⟩ | ⟨-, S, B, B', -, -, -, -, rfl⟩ <;> simp
  | hser => rw [execHser_next h]; simp
  | hpar => rw [execHpar_next h]; simp
  | embed => rcases execEmbed_next h with ⟨-, rfl⟩ | ⟨-, B, M, B', -, -, -, -, -, rfl⟩ <;> simp
  | extract =>
    rcases execExtract_next h with (rfl | rfl) | ⟨-, H, B, l, -, -, -, -, -, -, rfl⟩ <;> simp

/-- The host agent and the capacities are no operation's to change. -/
theorem exec_keeps_host {i : Instr} {s t : State} (h : exec i s = .next t) :
    t.script = s.script ∧ t.seen = s.seen ∧ t.cmd = s.cmd ∧ ∀ sp, t.capOf sp = s.capOf sp := by
  cases i with
  | fext2 ofs => rcases execFext2_next h with rfl | ⟨v, rfl⟩ <;> simp
  | fins2 ofs => rcases execFins2_next h with rfl | ⟨v, rfl⟩ <;> simp
  | gdec => rw [execGdec_next h]; simp
  | genc => rw [execGenc_next h]; simp
  | srd => obtain ⟨B, -, -, rfl⟩ := execSrd_next h; simp
  | swr => rcases execSwr_next h with ⟨-, rfl⟩ | ⟨-, S, B, B', -, -, -, -, rfl⟩ <;> simp
  | hser => rw [execHser_next h]; simp
  | hpar => rw [execHpar_next h]; simp
  | embed => rcases execEmbed_next h with ⟨-, rfl⟩ | ⟨-, B, M, B', -, -, -, -, -, rfl⟩ <;> simp
  | extract =>
    rcases execExtract_next h with (rfl | rfl) | ⟨-, H, B, l, -, -, -, -, -, -, rfl⟩ <;> simp

/-! ### What a step can do -/

theorem step_of_idle {s : State} (h : s.script = []) : step s = .next s := by
  simp [step, hostStep, h]

theorem step_of_action {s : State} {h : HostAction} {rest : List HostAction} (hs : s.script = h :: rest) :
    step s = hostAct h (s.setScript rest) := by
  simp [step, hostStep, hs]

/-- What a command write can do: run the decoded operation, or raise ILLEGAL_OP. -/
theorem runCommand_cases (s : State) :
    (∃ i, decode s.cmd = .ok i ∧ runCommand s = exec i s) ∨
    (∃ e, decode s.cmd = .error e ∧ runCommand s = .next (s.setStatus 0x05)) := by
  unfold runCommand
  cases decode s.cmd with
  | ok i => exact .inl ⟨i, rfl, rfl⟩
  | error e => exact .inr ⟨e, rfl, rfl⟩

/-- Everything a step that answers can be. -/
theorem step_cases {s t : State} (h : step s = .next t) :
    (s.script = [] ∧ t = s) ∨
    (∃ v rest, s.script = .wr .cmd v :: rest ∧ runCommand ((s.setScript rest).setCmd (v.setWidth 8)) = .next t) ∨
    (∃ r v rest, r ≠ .cmd ∧ s.script = .wr r v :: rest ∧ t = regAssign (s.setScript rest) v r) ∨
    (∃ r rest, r ≠ .cmd ∧ s.script = .rd r :: rest ∧
      t = (s.setScript rest).note (.reg r (regValue (s.setScript rest) r))) ∨
    (∃ sp a bs rest, s.script = .fill sp a bs :: rest ∧ memWrite (s.setScript rest) sp a bs = .next t) ∨
    (∃ sp a n bs rest, s.script = .dump sp a n :: rest ∧ memRead (s.setScript rest) sp a n = .next bs ∧
      t = (s.setScript rest).note (.bytes sp a bs)) ∨
    (∃ rest, s.script = .reset :: rest ∧ hostReset (s.setScript rest) = .next t) := by
  cases hs : s.script with
  | nil =>
    rw [step_of_idle hs] at h
    cases h
    exact .inl ⟨rfl, rfl⟩
  | cons a rest =>
    rw [step_of_action hs] at h
    cases a with
    | wr r v =>
      by_cases hr : r = .cmd
      · subst hr
        exact .inr (.inl ⟨v, rest, rfl, h⟩)
      · have : hostWrite r v (s.setScript rest) = .next (regAssign (s.setScript rest) v r) := by
          cases r <;> first | rfl | exact absurd rfl hr
        rw [hostAct, this] at h
        cases h
        exact .inr (.inr (.inl ⟨r, v, rest, hr, rfl, rfl⟩))
    | rd r =>
      by_cases hr : r = .cmd
      · subst hr
        cases h
      · have : hostRead r (s.setScript rest) = .next ((s.setScript rest).note (.reg r (regValue (s.setScript rest) r))) := by
          cases r <;> first | rfl | exact absurd rfl hr
        rw [hostAct, this] at h
        cases h
        exact .inr (.inr (.inr (.inl ⟨r, rest, hr, rfl, rfl⟩)))
    | fill sp a bs => exact .inr (.inr (.inr (.inr (.inl ⟨sp, a, bs, rest, rfl, h⟩))))
    | dump sp a n =>
      obtain ⟨bs, hb, h⟩ := andThen_eq_next_iff.1 h
      cases h
      exact .inr (.inr (.inr (.inr (.inr (.inl ⟨sp, a, n, bs, rest, rfl, hb, rfl⟩)))))
    | reset => exact .inr (.inr (.inr (.inr (.inr (.inr ⟨rest, rfl, h⟩)))))

end Sys2Proof.Machine
end

