-- ==== Sys2Proof/Laws/PerInstr.lean ====
section
/-! SUPPORT. What is said of every instruction as syntax, one lemma per constructor. -/

namespace Sys2Proof.Laws.EncodingFields

/-- The command byte of an operation has field Z clear and an operation code of the map, 0x1 to 0xA (30_encoding R80, R83). -/
def Statement (i : Instr) : Prop :=
  cmdZ (encode i) = false ∧ 0x1 ≤ (cmdOp (encode i)).toNat ∧ (cmdOp (encode i)).toNat ≤ 0xA

theorem fext2 (ofs : BitVec 3) : Statement (.fext2 ofs) := by unfold Statement; revert ofs; decide
theorem fins2 (ofs : BitVec 3) : Statement (.fins2 ofs) := by unfold Statement; revert ofs; decide
theorem gdec : Statement .gdec := by unfold Statement; decide
theorem genc : Statement .genc := by unfold Statement; decide
theorem srd : Statement .srd := by unfold Statement; decide
theorem swr : Statement .swr := by unfold Statement; decide
theorem hser : Statement .hser := by unfold Statement; decide
theorem hpar : Statement .hpar := by unfold Statement; decide
theorem embed : Statement .embed := by unfold Statement; decide
theorem extract : Statement .extract := by unfold Statement; decide

end Sys2Proof.Laws.EncodingFields
end

