-- ==== Sys2Proof/Tests/Slice0.lean ====
section
/-! SUPPORT. Tests whose expected values are the spec's own (95_test_vectors V, R the rules' worked examples), and for every
statement with hypotheses a witness that meets them. -/

namespace Sys2Proof.Tests

open Sys2Proof.Machine

/-! ### Helpers -/

/-- A state with the three lengths and the first bytes of the three spaces. -/
def st (bufLen msgLen strLen : Word) (cb mb sb : List Byte) : State :=
  { State.reset with
    bufLen := bufLen, msgLen := msgLen, strLen := strLen,
    cb := Mem.cells 0 cb, mb := Mem.cells 0 mb, sb := Mem.cells 0 sb }

/-- A state with PB, FV and CH0 to CH3. -/
def leaf (pb fv c0 c1 c2 c3 : Byte) : State :=
  { State.reset with pb := pb, fv := fv, ch0 := c0, ch1 := c1, ch2 := c2, ch3 := c3 }

/-- The result is a next state that passes the test. -/
def nextAnd (r : Result State) (p : State → Bool) : Bool :=
  match r with
  | .next t => p t
  | .fault _ => false
  | .refused _ => false

theorem exists_of_nextAnd {r : Result State} {p : State → Bool} (h : nextAnd r p = true) :
    ∃ t, r = .next t ∧ p t = true := by
  cases r with
  | next t => exact ⟨t, rfl, h⟩
  | fault e => cases h
  | refused e => cases h

/-- The 72 channel bytes of V40: "hi" embedded in zeros. -/
def cbV40 : List Byte :=
  [0x02, 0x01, 0x02, 0x02, 0x00, 0x03, 0x01, 0x03, 0x02, 0x03, 0x02, 0x01, 0x03, 0x01, 0x02, 0x01] ++
  [0x00, 0x03, 0x00, 0x00, 0x03, 0x02, 0x03, 0x01, 0x03, 0x00, 0x01, 0x03, 0x03, 0x00, 0x03, 0x03] ++
  [0x02, 0x00, 0x00, 0x00] ++ List.replicate 28 0x00 ++ [0x00, 0x02, 0x02, 0x01, 0x01, 0x02, 0x02, 0x01]

/-- The start state of V40. -/
def embedV40 : State := st 72 2 1 (List.replicate 72 0x00) [0x68, 0x69] []

/-- The start state of V46. -/
def extractV46 : State := st 72 0 1 cbV40 [0x00, 0x00] []

/-- The start state of V34. -/
def swrV34 : State := st 9 1 2 (List.replicate 9 0xFF) [] [0xA6, 0xDC]

/-- The start state of V30. -/
def srdV30 : State := st 9 1 1 [0x02, 0x01, 0x02, 0x02, 0x00, 0x03, 0x01, 0x03, 0xFF] [] []

/-! ### WellFormed and decoding (R81, R84, 95 section 2.6) -/

theorem test_wf_refuses_ofs7 : (Instr.fext2 7).wf = false ∧ (Instr.fins2 7).wf = false := by decide
theorem test_wf_accepts_ofs6 : (Instr.fext2 6).wf = true ∧ (Instr.fins2 6).wf = true := by decide

theorem test_decode_fext2 : decode 0b01000001#8 = .ok (.fext2 4) := by decide
theorem test_decode_fins2 : decode 0b01100010#8 = .ok (.fins2 6) := by decide
theorem test_decode_group : decode 0b00000011#8 = .ok .gdec ∧ decode 0b00000100#8 = .ok .genc := by decide
theorem test_decode_stream : decode 0b00000101#8 = .ok .srd ∧ decode 0b00000110#8 = .ok .swr := by decide
theorem test_decode_header : decode 0b00000111#8 = .ok .hser ∧ decode 0b00001000#8 = .ok .hpar := by decide
theorem test_decode_top : decode 0b00001001#8 = .ok .embed ∧ decode 0b00001010#8 = .ok .extract := by decide
theorem test_decode_refuses : decode 0x00#8 = .error .reservedOp ∧ decode 0x0B#8 = .error .reservedOp ∧
    decode 0x70#8 = .error .reservedOp ∧ decode 0x7B#8 = .error .reservedOp ∧ decode 0xF1#8 = .error .zSet ∧
    decode 0x13#8 = .error .ofsNotZero ∧ decode 0x7A#8 = .error .ofsNotZero := by decide

/-! ### One step from reset -/

theorem test_fetch_runs_first :
    nextAnd (step (State.reset.withFetchWord 8 0x03)) (fun t => t.status == 0x01 && t.script == []) = true := by decide

/-- V72, V74: 0xF1 is ILLEGAL_OP, 0x71 BAD_OPERAND. -/
theorem test_bad_commands :
    nextAnd (step (State.reset.withFetchWord 8 0xF1)) (fun t => t.status == 0x05) = true ∧
    nextAnd (step (State.reset.withFetchWord 8 0x71)) (fun t => t.status == 0x06) = true := by decide

/-! ### The operations -/

/-- V2. -/
theorem test_fext2_v2 :
    nextAnd (exec (.fext2 2) (leaf 0xA6 0 0 0 0 0)) (fun t => t.fv == 0x01 && t.status == 0x01) = true := by decide
/-- V8. -/
theorem test_fext2_v8 :
    nextAnd (exec (.fext2 7) (leaf 0xE4 0x55 0 0 0 0)) (fun t => t.fv == 0x55 && t.status == 0x06) = true := by decide
/-- V12. -/
theorem test_fins2_v12 :
    nextAnd (exec (.fins2 6) (leaf 0x5A 0xFE 0 0 0 0)) (fun t => t.pb == 0x9A && t.status == 0x01) = true := by decide
/-- V13: an odd offset. -/
theorem test_fins2_v13 :
    nextAnd (exec (.fins2 5) (leaf 0x5A 0x07 0 0 0 0)) (fun t => t.pb == 0x7A && t.fv == 0x07) = true := by decide
/-- V19. -/
theorem test_gdec_v19 : nextAnd (exec .gdec (leaf 0 0 0xFF 0xFC 0xFD 0xFE)) (fun t => t.pb == 0x93) = true := by decide
/-- V22: lane 3 is the most significant slice. -/
theorem test_gdec_v22 : nextAnd (exec .gdec (leaf 0 0 0 0 0 0x01)) (fun t => t.pb == 0x40) = true := by decide
/-- V24. -/
theorem test_genc_v24 :
    nextAnd (exec .genc (leaf 0xA6 0 0x12 0x35 0xFE 0x07)) (fun t => t.group == ⟨0x12, 0x35, 0xFE, 0x06⟩) = true := by decide
/-- V25. -/
theorem test_genc_v25 :
    nextAnd (exec .genc (leaf 0x1B 0 0x80 0x81 0x82 0x83)) (fun t => t.group == ⟨0x83, 0x82, 0x81, 0x80⟩) = true := by decide
/-- V30: CB[8] is not read, and STR_LEN is 2. -/
theorem test_srd_v30 :
    nextAnd (exec .srd srdV30) (fun t => t.sb == [(0, 0xA6), (1, 0xDC)] && t.strLen == 2) = true := by decide
/-- V32: no whole group. -/
theorem test_srd_v32 :
    nextAnd (exec .srd (st 3 1 1 [0x03, 0x03, 0x03] [] [])) (fun t => t.sb == [] && t.strLen == 0 && t.status == 0x01) =
      true := by decide
/-- V34. -/
theorem test_swr_v34 :
    nextAnd (exec .swr swrV34)
      (fun t => t.cb == Mem.cells 0 [0xFE, 0xFD, 0xFE, 0xFE, 0xFC, 0xFF, 0xFD, 0xFF, 0xFF]) = true := by decide
/-- V39: the product is exact. -/
theorem test_swr_v39 :
    nextAnd (exec .swr (st 0xFFFFFFFFFFFFFFFF 1 0x4000000000000000 [] [] [])) (fun t => t.status == 0x06) = true := by decide
/-- V62. -/
theorem test_hser_v62 :
    nextAnd (exec .hser (st 1 0x0123456789ABCDEF 1 [] [] []))
      (fun t => hdrBytes t.hdr == [0xA6, 0xDC, 0x6E, 0x67, 0x0C, 0x7B, 0xD3, 0xF3, 0xEF, 0xCD, 0xAB, 0x89, 0x67, 0x45, 0x23,
        0x01]) = true := by decide
/-- V64: HDR's bytes, byte 0 in bits [7:0], are A6 DC 6E 67 0C 7B D3 F3 05 01 and zeros. -/
theorem test_hpar_v64 :
    nextAnd (exec .hpar { State.reset with hdr := 0x0000000000000105F3D37B0C676EDCA6 })
      (fun t => t.hmagic == 0xF3D37B0C676EDCA6 && t.msgLen == 261) = true := by decide
/-- V66: a big-endian header. -/
theorem test_hpar_v66 :
    nextAnd (exec .hpar { State.reset with hdr := 0x0200000000000000A6DC6E670C7BD3F3 })
      (fun t => t.hmagic == 0xA6DC6E670C7BD3F3 && t.msgLen == 0x0200000000000000) = true := by decide
/-- V40. -/
theorem test_embed_v40 :
    nextAnd (exec .embed embedV40) (fun t => t.cb == Mem.cells 0 cbV40 && t.status == 0x01) = true := by decide +kernel
/-- V57: the sum is exact. -/
theorem test_embed_v57 :
    nextAnd (exec .embed (st 0xFFFFFFFFFFFFFFFF 0xFFFFFFFFFFFFFFF0 1 [] [] [])) (fun t => t.status == 0x02) = true := by decide
/-- V46. -/
theorem test_extract_v46 :
    nextAnd (exec .extract extractV46)
      (fun t => t.mb == [(0, 0x68), (1, 0x69)] && t.msgLen == 2 && t.status == 0x01) = true := by decide +kernel
/-- V52: the buffer cut to 71 bytes. -/
theorem test_extract_v52 :
    nextAnd (exec .extract { extractV46 with bufLen := 71 }) (fun t => t.status == 0x04 && t.msgLen == 0) = true := by
  decide +kernel

/-! ### The host -/

/-- R23, R24: MAGIC reads its constant, whatever is written to it. -/
theorem test_magic_hardwired :
    nextAnd (step { State.reset with script := [.rd .magic] })
      (fun t => t.seen == [.reg .magic 0xF3D37B0C676EDCA6]) = true := by decide

/-- R206: an operation whose BUF_LEN is larger than the memory behind CB has no move, though every byte it touches is there;
R212: a failing capacity check comes first. -/
theorem test_lengths_are_true :
    exec .swr { swrV34 with cbMax := 8 } = .fault (.beyondMemory .cb) ∧
    nextAnd (exec .swr { swrV34 with strLen := 3, cbMax := 8 }) (fun t => t.status == 0x06) = true ∧
    exec .extract { extractV46 with mbMax := 1 } = .fault (.beyondMemory .mb) := ⟨rfl, by decide, rfl⟩

/-- R206: a FILL past the memory behind CB has no move; R41: a DUMP of an unwritten byte is refused. -/
theorem test_host_stops :
    hostFill .cb 4 [0x00] { State.reset with cbMax := 4 } = .fault (.beyondMemory .cb) ∧
    hostDump .cb 0 1 State.reset = .refused (.unwrittenByte .cb) := ⟨rfl, rfl⟩

/-! ### Witnesses: the hypotheses of each statement are met somewhere -/

theorem witness_EncodeOfDecode : decode 0x41#8 = .ok (.fext2 4) := by decide

theorem witness_StepRunsDecodedInstruction :
    (State.reset.withFetchWord 8 0x21).script = .wr .cmd 0x21 :: [] ∧
    decode ((0x21 : HdrWord).setWidth 8) = .ok (.fext2 2) ∧ State.reset.script = [] := ⟨rfl, by decide, rfl⟩

/-- One byte for each clause, at its boundary: 0x80, 0x0B, 0x13, 0x71, and 0x61, which runs. -/
theorem witness_CommandDecodingInOrder :
    (State.reset.withFetchWord 8 0x80).script = .wr .cmd 0x80 :: [] ∧ commandClass 0x80#8 = 2 ∧ commandClass 0x0B#8 = 2 ∧
    commandClass 0x13#8 = 2 ∧ commandClass 0x71#8 = 1 ∧ commandClass 0x61#8 = 0 := ⟨rfl, by decide⟩

/-- A field at the top of a byte, and the empty field past it. -/
theorem witness_ExtractFieldIsTheField : 6 + 2 ≤ 8 ∧ 1 ≤ 2 ∧ 8 + 0 ≤ 8 := by decide

/-- The whole byte as a field, and its last bit. -/
theorem witness_InsertFieldPutsTheField : 0 + 8 ≤ 8 ∧ 7 < 8 := by decide

/-- The bit below and the bit above the field at 2 of width 2; two fields that touch. -/
theorem witness_FieldAccessorLaws : 2 + 2 ≤ 8 ∧ (1 < 8 ∧ 1 < 2) ∧ (4 < 8 ∧ 2 + 2 ≤ 4) ∧ (0 + 2 ≤ 2 ∧ 2 + 6 ≤ 8) := by decide

theorem witness_Fext2ExtractsTheField : (6 : BitVec 3) ≠ 7 ∧ (7 : BitVec 3) = 7 := by decide

theorem witness_Fins2InsertsTheField : (6 : BitVec 3) ≠ 7 ∧ (7 : BitVec 3) = 7 := by decide

/-- V30's second and last group. -/
theorem witness_ReadStreamDecodesGroups :
    let B : List Byte := [0x02, 0x01, 0x02, 0x02, 0x00, 0x03, 0x01, 0x03, 0xFF]
    B[4 * 1]? = some 0x00 ∧ B[4 * 1 + 1]? = some 0x03 ∧ B[4 * 1 + 2]? = some 0x01 ∧ B[4 * 1 + 3]? = some 0x03 := by decide

/-- V34, V36: nine bytes hold a stream of two, not of three; and the clauses' indices. -/
theorem witness_WriteStreamEncodesGroups :
    let B : List Byte := List.replicate 9 0xFF
    let S : List Byte := [0xA6, 0xDC]
    4 * S.length ≤ B.length ∧ B.length < 4 * (S ++ [0x00]).length ∧ S[1]? = some 0xDC ∧ B[4 * 1 + 3]? = some 0xFF ∧
    4 * S.length ≤ 8 := by decide

/-- V34, with a third group so that a stream byte past the written ones exists. -/
theorem witness_StreamCodecLaws :
    writeStream (List.replicate 12 0xFF) [0xA6, 0xDC] =
      some [0xFE, 0xFD, 0xFE, 0xFE, 0xFC, 0xFF, 0xFD, 0xFF, 0xFF, 0xFF, 0xFF, 0xFF] ∧
    [0xA6, 0xDC].length ≤ 2 ∧ 2 < (List.replicate 12 (0xFF : Byte)).length / 4 := by decide

theorem witness_SrdReadsTheWholeStream : HostReady .srd srdV30 ∧ 1 < srdV30.bufLen.toNat / 4 := by decide

/-- V36 for the first clause, V34 for the second. -/
theorem witness_SwrWritesTheStream :
    ({ swrV34 with strLen := 3 }).bufLen.toNat < 4 * ({ swrV34 with strLen := 3 }).strLen.toNat ∧
    4 * swrV34.strLen.toNat ≤ swrV34.bufLen.toNat ∧ HostReady .swr swrV34 ∧ swrV34.sb.read 1 = some 0xDC ∧
    swrV34.cb.read (4 * 1 + 3) = some 0xFF := by decide

theorem witness_SrdTwiceIsSrdOnce : ∃ t, exec .srd srdV30 = .next t :=
  have ⟨t, h, _⟩ := exists_of_nextAnd test_srd_v30
  ⟨t, h⟩

/-- V42 for the first clause, V40 for the second, at the last stream byte. -/
theorem witness_EmbedPacksTheMessage :
    ({ embedV40 with bufLen := 68 }).bufLen.toNat / 4 < 16 + ({ embedV40 with bufLen := 68 }).msgLen.toNat ∧
    16 + embedV40.msgLen.toNat ≤ embedV40.bufLen.toNat / 4 ∧ HostReady .embed embedV40 ∧
    payloadAt embedV40 17 = some 0x69 ∧ embedV40.cb.read (4 * 17 + 3) = some 0x00 := by decide +kernel

/-- The stream V40's buffer carries. -/
def streamV40 : List Byte :=
  [0xA6, 0xDC, 0x6E, 0x67, 0x0C, 0x7B, 0xD3, 0xF3, 0x02, 0x00, 0x00, 0x00, 0x00, 0x00, 0x00, 0x00, 0x68, 0x69]

/-- V46, where the message fills the capacity; V51, V56 and V52 for the three failures. -/
theorem witness_ExtractUnpacksTheMessage :
    (HostReady .extract extractV46 ∧ streamV40.length = extractV46.bufLen.toNat / 4 ∧
      (∀ k, k < streamV40.length → streamAt extractV46.cb k = streamV40[k]?) ∧
      ule64 (streamV40.take 8) = 0xF3D37B0C676EDCA6 ∧ ¬ streamV40.length < 16 + (ule64 ((streamV40.drop 8).take 8)).toNat) ∧
    (HostReady .extract { extractV46 with bufLen := 63 } ∧ (streamV40.take 15).length = 63 / 4 ∧
      ∀ k, k < (streamV40.take 15).length → streamAt extractV46.cb k = (streamV40.take 15)[k]?) ∧
    (HostReady .extract { extractV46 with bufLen := 71 } ∧ (streamV40.take 17).length = 71 / 4 ∧
      (∀ k, k < (streamV40.take 17).length → streamAt extractV46.cb k = (streamV40.take 17)[k]?) ∧
      (streamV40.take 17).length < 16 + (ule64 (((streamV40.take 17).drop 8).take 8)).toNat) := by decide +kernel

/-- A buffer of zeros, whose magic is 0 (V50). -/
theorem witness_ExtractUnpacksTheMessage_magic :
    HostReady .extract (st 64 1 1 (List.replicate 64 0x00) [] []) ∧
    (∀ k, k < 16 → streamAt (Mem.cells 0 (List.replicate 64 0x00)) k = (List.replicate 16 (0x00 : Byte))[k]?) ∧
    ule64 ((List.replicate 16 (0x00 : Byte)).take 8) ≠ 0xF3D37B0C676EDCA6 := by decide +kernel

theorem witness_EmbedRefinesPureEmbed :
    memRead embedV40 .cb 0 embedV40.bufLen.toNat = .next (List.replicate 72 0x00) ∧
    memRead embedV40 .mb 0 embedV40.msgLen.toNat = .next [0x68, 0x69] ∧
    (embed (List.replicate 72 0x00) [0x68, 0x69]).isSome = true ∧
    (embed (List.replicate 68 0x00) [0x68, 0x69]).isSome = false := ⟨rfl, rfl, by decide, by decide⟩

/-- V46, and the same with a tail of three bytes no one wrote. -/
theorem witness_ExtractRefinesPureExtract :
    memRead { extractV46 with bufLen := 75 } .cb 0 (4 * (75 / 4)) = .next cbV40 ∧
    ([0x00, 0x00, 0x00] : List Byte).length = (75 : Word).toNat % 4 ∧
    HasRoom { extractV46 with bufLen := 75 } .cb 75 ∧
    HasRoom { extractV46 with bufLen := 75 } .mb (capacity { extractV46 with bufLen := 75 } - 16) :=
  ⟨rfl, by decide, by decide, by decide⟩

theorem witness_ExtractOfEmbedIsTheMessage :
    ([0x68, 0x69] : List Byte).length < 2 ^ 64 ∧
    16 + ([0x68, 0x69] : List Byte).length ≤ (List.replicate 72 (0x00 : Byte)).length / 4 := by decide

theorem embed_v40_ends_in_ok : ∃ t, exec .embed embedV40 = .next t ∧ t.status = 0x01 := by
  obtain ⟨t, h, ht⟩ := exists_of_nextAnd test_embed_v40
  exact ⟨t, h, by simpa using (Bool.and_eq_true_iff.1 ht).2⟩

theorem witness_EmbedThenExtractRoundTrip :
    (∃ t, exec .embed embedV40 = .next t ∧ t.status = 0x01) ∧ HasRoom embedV40 .mb (capacity embedV40 - 16) :=
  ⟨embed_v40_ends_in_ok, by decide⟩

/-- The boundary: 68 bytes do not hold "hi", 72 do. -/
theorem witness_EmbedCapacityBoundary :
    (List.replicate 68 (0x00 : Byte)).length / 4 = 16 + ([0x68, 0x69] : List Byte).length - 1 ∧
    (List.replicate 72 (0x00 : Byte)).length / 4 = 16 + ([0x68, 0x69] : List Byte).length := by decide

theorem witness_EmbedIsNonDestructive : embed (List.replicate 72 0x00) [0x68, 0x69] = some cbV40 := by decide +kernel

/-- A buffer for each outcome: V40's, V51's, one of zeros, V52's. -/
theorem witness_RecognitionOfAValidStream :
    extract cbV40 = .ok [0x68, 0x69] ∧ (readStream (cbV40.take 63)).length < 16 ∧
    ule64 ((readStream (List.replicate 64 0x00)).take 8) ≠ Config.magic ∧
    extract (cbV40.take 71) = .error .formatError := by decide +kernel

theorem witness_ExtractIsIdempotent : ∃ t, exec .extract extractV46 = .next t :=
  have ⟨t, h, _⟩ := exists_of_nextAnd test_extract_v46
  ⟨t, h⟩

/-- V54: only bits [7:2] of CB[0] changed. -/
theorem witness_HighBitsDoNotInfluenceExtract :
    cbV40.map (· &&& 3#8) = (cbV40.set 0 0x06).map (· &&& 3#8) ∧ cbV40 ≠ cbV40.set 0 0x06 := by decide

/-- V46 and V52; the operation's hypotheses are met by V46 in witness_ExtractUnpacksTheMessage too. -/
theorem witness_LengthTestsInSixtyFourBits :
    (HostReady .extract extractV46 ∧ streamV40.length = extractV46.bufLen.toNat / 4 ∧
      (∀ k, k < streamV40.length → streamAt extractV46.cb k = streamV40[k]?) ∧ ¬ extractV46.bufLen >>> 2 < 16#64 ∧
      ule64 (streamV40.take 8) = Config.magic) ∧
    cbV40.length < 2 ^ 64 ∧ 16 ≤ (readStream cbV40).length ∧ ule64 ((readStream cbV40).take 8) = Config.magic ∧
    16 ≤ (readStream (cbV40.take 71)).length ∧ ule64 ((readStream (cbV40.take 71)).take 8) = Config.magic := by
  decide +kernel

theorem witness_EmbedFromLowerOperations :
    (∃ t, exec .embed embedV40 = .next t ∧ t.status = 0x01) ∧
    memRead embedV40 .mb 0 embedV40.msgLen.toNat = .next [0x68, 0x69] ∧
    HasRoom embedV40 .sb (16 + embedV40.msgLen.toNat) := ⟨embed_v40_ends_in_ok, rfl, by decide⟩

theorem test_srd_of_v40 : nextAnd (exec .srd extractV46) (fun t => decide (16 ≤ t.strLen.toNat)) = true := by decide +kernel

theorem witness_ExtractHeaderFromLowerOperations :
    ∃ s1 v, exec .srd extractV46 = .next s1 ∧ 16 ≤ s1.strLen.toNat ∧ exec .extract extractV46 = .next v := by
  obtain ⟨s1, h1, h16⟩ := exists_of_nextAnd test_srd_of_v40
  obtain ⟨v, hv⟩ := witness_ExtractIsIdempotent
  exact ⟨s1, v, h1, by simpa using h16, hv⟩

theorem witness_ReadyOperationsComplete :
    HostReady (.fext2 0) State.reset ∧ HostReady .srd srdV30 ∧ HostReady .swr swrV34 ∧ HostReady .embed embedV40 ∧
    HostReady .extract extractV46 := by decide +kernel

/-- Memories one byte too short, for each operation that checks two. -/
theorem witness_AbsentBytes_memories :
    let s : State := { st 72 2 18 [] [] [] with cbMax := 71 }
    let u : State := { st 72 2 18 [] [] [] with sbMax := 17, mbMax := 1 }
    (s.cbMax < s.bufLen.toNat ∧ 4 * s.strLen.toNat ≤ s.bufLen.toNat ∧ 16 + s.msgLen.toNat ≤ s.bufLen.toNat / 4) ∧
    (u.bufLen.toNat ≤ u.cbMax ∧ u.sbMax < u.bufLen.toNat / 4 ∧ u.sbMax < u.strLen.toNat ∧ u.mbMax < u.msgLen.toNat ∧
      u.mbMax < u.bufLen.toNat / 4 - 16) := by decide

/-- No byte written; then the one space written and the last byte of the other not. -/
theorem witness_AbsentBytes_spaces :
    let s : State := st 72 2 18 [] [] []
    let u : State := st 72 2 1 (List.replicate 72 0xFF) [0x68] [0xA6]
    let v : State := st 9 1 2 (List.replicate 7 0xFF) [] [0xA6, 0xDC]
    (s.cb.read 71 = none ∧ s.sb.read 17 = none ∧ s.cb.read 63 = none) ∧
    ((∀ j, j < 4 * (16 + u.msgLen.toNat) → (u.cb.read j).isSome = true) ∧ u.mb.read 1 = none) ∧
    (4 * v.strLen.toNat ≤ v.bufLen.toNat ∧ (∀ j, j < v.strLen.toNat → (v.sb.read j).isSome = true) ∧ v.cb.read 7 = none) := by
  decide +kernel

/-- V46's buffer without its last byte: the header is there and the message is not. -/
theorem witness_AbsentBytes_message :
    let s : State := st 72 0 1 (cbV40.take 71) [] []
    (∀ k, k < 16 → streamAt s.cb k = (le64 Config.magic ++ le64 2)[k]?) ∧ 16 + (2 : Word).toNat ≤ s.bufLen.toNat / 4 ∧
    s.cb.read 71 = none ∧ 71 < 64 + 4 * (2 : Word).toNat ∧ s.bufLen.toNat / 4 - 16 ≤ s.mbMax := by decide +kernel

theorem witness_FrameOfRegisterOperations :
    (∃ t, exec (.fext2 2) State.reset = .next t) ∧ (∃ t, exec (.fins2 2) State.reset = .next t) ∧
    (∃ t, exec .gdec State.reset = .next t) ∧ (∃ t, exec .genc State.reset = .next t) ∧
    (∃ t, exec .hser State.reset = .next t) ∧ (∃ t, exec .hpar State.reset = .next t) :=
  ⟨⟨_, rfl⟩, ⟨_, rfl⟩, ⟨_, rfl⟩, ⟨_, rfl⟩, ⟨_, rfl⟩, ⟨_, rfl⟩⟩

theorem witness_FrameOfStoringOperations :
    (∃ t, exec .srd srdV30 = .next t) ∧ (∃ t, exec .swr swrV34 = .next t) ∧ (∃ t, exec .embed embedV40 = .next t) ∧
    (∃ t, exec .extract extractV46 = .next t) := by
  obtain ⟨t, ht, -⟩ := exists_of_nextAnd test_swr_v34
  obtain ⟨u, hu, -⟩ := embed_v40_ends_in_ok
  exact ⟨witness_SrdTwiceIsSrdOnce, ⟨t, ht⟩, ⟨u, hu⟩, witness_ExtractIsIdempotent⟩

/-- Two states that differ in what SRD does not read. -/
theorem witness_OperationsReadOnlyTheirReadSet :
    ReadsAlike .srd srdV30 { srdV30 with pb := 0x77, status := 0x06, msgLen := 9 } ∧ ∃ t, exec .srd srdV30 = .next t :=
  ⟨⟨fun sp => by cases sp <;> rfl, rfl, rfl⟩, witness_SrdTwiceIsSrdOnce⟩

/-- A failing outcome of each kind: FEXT2 7, SWR too long, EMBED too long, EXTRACT of a short and of a cut buffer. -/
theorem witness_FailureChangesStatusOnly :
    (∃ t, exec (.fext2 7) State.reset = .next t ∧ t.status = 0x06) ∧
    (∃ t, exec .swr { swrV34 with strLen := 3 } = .next t ∧ t.status = 0x06) ∧
    (∃ t, exec .embed { embedV40 with bufLen := 68 } = .next t ∧ t.status = 0x02) ∧
    (∃ t, exec .extract { extractV46 with bufLen := 63 } = .next t ∧ t.status = 0x03) ∧
    (∃ t, exec .extract { extractV46 with bufLen := 71 } = .next t ∧ t.status = 0x04) := by
  obtain ⟨t, ht, hs⟩ := exists_of_nextAnd test_extract_v52
  exact ⟨⟨_, rfl, rfl⟩, ⟨_, rfl, rfl⟩, ⟨_, rfl, rfl⟩, ⟨_, rfl, rfl⟩, ⟨t, ht, by simpa using (Bool.and_eq_true_iff.1 hs).1⟩⟩

/-- One operation for each code an operation can fail with. -/
theorem witness_OutcomeCodesByOperation :
    (∃ t, exec .embed { embedV40 with bufLen := 68 } = .next t ∧ t.status = 0x02) ∧
    (∃ t, exec .extract { extractV46 with bufLen := 63 } = .next t ∧ t.status = 0x03) ∧
    (∃ t, exec .extract { extractV46 with bufLen := 71 } = .next t ∧ t.status = 0x04) ∧
    (∃ t, exec (.fins2 7) State.reset = .next t ∧ t.status = 0x06) :=
  ⟨⟨_, rfl, rfl⟩, ⟨_, rfl, rfl⟩, witness_FailureChangesStatusOnly.2.2.2.2, ⟨_, rfl, rfl⟩⟩

theorem witness_BorrowedSpacesAreKept :
    (∃ t, exec .srd srdV30 = .next t) ∧ (∃ t, exec .extract extractV46 = .next t) ∧
    (∃ t, exec .embed embedV40 = .next t) ∧ (∃ t, exec .swr swrV34 = .next t) :=
  have ⟨h1, h2, h3, h4⟩ := witness_FrameOfStoringOperations
  ⟨h1, h4, h3, h2⟩

/-- V35's shape: the last byte of a written group, and a byte of the tail with no value. -/
theorem witness_CoreKeepsTheCarrier :
    (∃ t, exec .swr swrV34 = .next t) ∧ swrV34.cb.read 7 = some 0xFF ∧ swrV34.cb.read 9 = none ∧
    4 * (swrV34.bufLen.toNat / 4) ≤ 8 :=
  ⟨witness_FrameOfStoringOperations.2.1, by decide⟩

theorem witness_WideAccessIsBytewise : memRead swrV34 .sb 0 2 = .next [0xA6, 0xDC] := rfl

theorem witness_ReadGivesTheLastWrite : ∃ t, memWrite State.reset .sb 5 [0x11, 0x22] = .next t := ⟨_, rfl⟩

/-- Two ranges that touch. -/
theorem witness_DisjointWritesCommute :
    (State.reset.mem .cb).wf = true ∧ 0 + ([0x11, 0x22] : List Byte).length ≤ 2 ∧
    2 + ([0x33] : List Byte).length ≤ State.reset.capOf .cb := by decide

theorem witness_HostWritesRegisters :
    ({ State.reset with script := [.wr .status 0x55] }).script = .wr .status 0x55 :: [] ∧ Reg.status ≠ .cmd ∧
    ({ State.reset with script := [.wr .ch3 0x1FF] }).script = .wr .ch3 0x1FF :: [] ∧ Reg.ch3 ≠ .cmd ∧
    ({ State.reset with script := [.wr .bufLen 0xFFFFFFFFFFFFFFFF] }).script = .wr .bufLen 0xFFFFFFFFFFFFFFFF :: [] ∧
    Reg.bufLen ≠ .cmd ∧ (0xFFFFFFFFFFFFFFFF : HdrWord).toNat < 2 ^ 64 ∧ Reg.hdr ≠ .cmd := by decide

theorem witness_HostReadsRegisters :
    ({ State.reset with script := [.rd .hdr] }).script = .rd .hdr :: [] ∧ Reg.hdr ≠ .cmd ∧
    ({ State.reset with script := [.rd .cmd] }).script = .rd .cmd :: [] := by decide

theorem witness_MagicIsHardwired :
    ({ State.reset with script := [.rd .magic] }).script = .rd .magic :: [] ∧
    ({ State.reset with script := [.wr .magic 0] }).script = .wr .magic 0 :: [] := by decide

theorem witness_RegisterNumbersAreIdentities : Reg.ofNumber 13 = some .hdr ∧ Reg.ofNumber 14 = none := by decide

theorem witness_ResetLeavesIdle : ({ swrV34 with script := [.reset] }).script = .reset :: [] := rfl

/-- The reset takes away a byte that had a value. -/
theorem witness_ResetLeavesBytesWithoutValue :
    ({ swrV34 with script := [.reset] }).script = .reset :: [] ∧ swrV34.cb.read 0 = some 0xFF ∧
    ∃ t, step { swrV34 with script := [.reset] } = .next t := ⟨rfl, rfl, _, rfl⟩

/-- A reset from a state whose STATUS is not IDLE. -/
theorem witness_IdleOnlyByReset :
    ∃ t, step { swrV34 with status := 0x01, script := [.reset] } = .next t ∧ t.status = 0x00 := ⟨_, rfl, rfl⟩

theorem witness_StepKeepsTheInvariant :
    State.Inv { swrV34 with script := [.wr .cmd 0x06] } ∧
    nextAnd (step { swrV34 with script := [.wr .cmd 0x06] }) (fun t => t.status == 0x01) = true := by decide

end Sys2Proof.Tests
end

/-! ## 00_scope: byte order (R16), the decoded operation (R11), the invariant (R8) -/

namespace Sys2Proof.Machine

/-! ### Byte order -/

/-- The `n` lowest bytes of a number, least significant first: the inverse of `natOfBytes` (R16). -/
def bytesOfNat : Nat → Nat → List Byte
  | 0, _ => []
  | n + 1, x => BitVec.ofNat 8 x :: bytesOfNat n (x / 256)

theorem bytesOfNat_eq_map_range (n x : Nat) :
    bytesOfNat n x = (List.range n).map fun i => BitVec.ofNat 8 (x >>> (8 * i)) := by
  induction n generalizing x with
  | zero => rfl
  | succ n ih =>
    have shift_succ (i : Nat) : x >>> (8 * (i + 1)) = (x / 256) >>> (8 * i) := by
      rw [show 8 * (i + 1) = 8 + 8 * i by omega, Nat.shiftRight_add, Nat.shiftRight_eq_div_pow x 8]
    simp [bytesOfNat, ih, List.range_succ_eq_map, shift_succ]

theorem natOfBytes_bytesOfNat (n x : Nat) : natOfBytes (bytesOfNat n x) = x % 256 ^ n := by
  induction n generalizing x with
  | zero => simp [bytesOfNat, natOfBytes, Nat.mod_one]
  | succ n ih =>
    calc natOfBytes (bytesOfNat (n + 1) x)
        = x % 256 + 256 * (x / 256 % 256 ^ n) := by simp [bytesOfNat, natOfBytes, ih]
      _ = x % (256 * 256 ^ n) := Nat.mod_mul.symm
      _ = x % 256 ^ (n + 1) := by rw [Nat.pow_succ']

theorem bytesOfNat_natOfBytes (h : List Byte) : bytesOfNat h.length (natOfBytes h) = h := by
  induction h with
  | nil => rfl
  | cons b h ih =>
    have hb := b.isLt
    have head : BitVec.ofNat 8 (b.toNat + 256 * natOfBytes h) = b := by
      apply BitVec.eq_of_toNat_eq
      rw [BitVec.toNat_ofNat]
      omega
    have tail : (b.toNat + 256 * natOfBytes h) / 256 = natOfBytes h := by omega
    rw [List.length_cons, natOfBytes, bytesOfNat, head, tail, ih]

theorem le64_eq_bytesOfNat (v : Word) : le64 v = bytesOfNat 8 v.toNat := by
  rw [bytesOfNat_eq_map_range, le64]
  refine List.map_congr_left fun i _ => BitVec.eq_of_toNat_eq ?_
  simp

/-- Element i of `LE64(v)` is `(v >> 8i) & 0xFF` (R16). -/
theorem le64_getElem?_toNat (v : Word) {i : Nat} (hi : i < 8) :
    ((le64 v)[i]?).map BitVec.toNat = some ((v.toNat >>> (8 * i)) &&& 0xFF) := by
  have and_byte (x : Nat) : x &&& 0xFF = x % 256 := Nat.and_two_pow_sub_one_eq_mod x 8
  simp [le64, hi, and_byte]

theorem ule64_toNat {h : List Byte} (hl : h.length = 8) : (ule64 h).toNat = natOfBytes h := by
  have := natOfBytes_lt h
  rw [hl] at this
  exact Nat.mod_eq_of_lt this

@[simp] theorem ule64_le64 (v : Word) : ule64 (le64 v) = v := by
  apply BitVec.eq_of_toNat_eq
  rw [ule64_toNat (le64_length v), le64_eq_bytesOfNat, natOfBytes_bytesOfNat]
  exact Nat.mod_eq_of_lt v.isLt

theorem le64_ule64 {h : List Byte} (hl : h.length = 8) : le64 (ule64 h) = h := by
  rw [le64_eq_bytesOfNat, ule64_toNat hl, ← hl, bytesOfNat_natOfBytes]

/-- Settles O21: `natOfBytes` and `bytesOfNat` undo each other. -/
theorem byteOrderPrimitives : Obligations.ByteOrderPrimitives := by
  refine ⟨fun v => ⟨le64_length v, fun _ => le64_getElem?_toNat v, ule64_le64 v⟩,
    fun h0 h1 h2 h3 h4 h5 h6 h7 => ⟨?_, le64_ule64 rfl⟩⟩
  rw [ule64_toNat rfl]
  simp only [natOfBytes]
  omega

/-! ### The command a step runs -/

theorem runCommand_of_decode {s : State} {i : Instr} (h : decode s.cmd = .ok i) : runCommand s = exec i s := by
  simp [runCommand, h]

theorem step_of_command {s : State} {v : HdrWord} {rest : List HostAction} (hs : s.script = .wr .cmd v :: rest) :
    step s = runCommand ((s.setScript rest).setCmd (v.setWidth 8)) := step_of_action hs

/-- Settles O5: the write of CMD is the command, an empty script the idle step. -/
theorem stepRunsDecodedInstruction : Obligations.StepRunsDecodedInstruction :=
  ⟨fun _ _ _ _ hs hd => (step_of_command hs).trans (runCommand_of_decode hd), fun _ => step_of_idle⟩

/-! ### The invariant -/

/-- What any operation can do to a space: leave it, or write bytes from address 0 up that have memory behind them. -/
theorem exec_mem_cases {i : Instr} {s t : State} (h : exec i s = .next t) (sp : Space) :
    t.mem sp = s.mem sp ∨
    ∃ bs, inMemory s sp 0 bs.length = true ∧ t.mem sp = (s.mem sp).writeBytes 0 bs := by
  have stored {sp' : Space} {bs : List Byte} (hin : inMemory s sp' 0 bs.length = true)
      (ht : t.mem sp = (s.setMem sp' ((s.mem sp').writeBytes 0 bs)).mem sp) :
      t.mem sp = s.mem sp ∨ ∃ bs, inMemory s sp 0 bs.length = true ∧ t.mem sp = (s.mem sp).writeBytes 0 bs := by
    by_cases hsp : sp = sp'
    · subst hsp
      exact .inr ⟨bs, hin, by rw [ht, State.setMem_mem_self]⟩
    · exact .inl (by rw [ht, State.setMem_mem_of_ne _ _ _ _ hsp])
  cases i with
  | fext2 ofs => rcases execFext2_next h with rfl | ⟨v, rfl⟩ <;> exact .inl (by simp)
  | fins2 ofs => rcases execFins2_next h with rfl | ⟨v, rfl⟩ <;> exact .inl (by simp)
  | gdec => exact .inl (by rw [execGdec_next h]; simp)
  | genc => exact .inl (by rw [execGenc_next h]; simp)
  | srd =>
    obtain ⟨B, -, hin, rfl⟩ := execSrd_next h
    exact stored hin (by simp)
  | swr =>
    rcases execSwr_next h with ⟨-, rfl⟩ | ⟨-, S, B, B', -, hB, -, hl, rfl⟩
    · exact .inl (by simp)
    · exact stored (hl ▸ (memRead_eq_next_iff.1 hB).1) (by simp)
  | hser => exact .inl (by rw [execHser_next h]; simp)
  | hpar => exact .inl (by rw [execHpar_next h]; simp)
  | embed =>
    rcases execEmbed_next h with ⟨-, rfl⟩ | ⟨-, B, M, B', hB, -, -, -, hl, rfl⟩
    · exact .inl (by simp)
    · exact stored (hl ▸ (memRead_eq_next_iff.1 hB).1) (by simp)
  | extract =>
    rcases execExtract_next h with (rfl | rfl) | ⟨-, H, B, l, -, -, -, -, hin, -, rfl⟩
    · exact .inl (by simp)
    · exact .inl (by simp)
    · exact stored hin (by simp)

/-- An action that leaves the spaces and the capacities alone keeps the invariant, whatever legal code it puts in STATUS. -/
theorem State.Inv.of_mem_eq {s t : State} (h : s.Inv) (hst : statusLegal t.status)
    (hmem : ∀ sp, t.mem sp = s.mem sp) (hcap : ∀ sp, t.capOf sp = s.capOf sp) : t.Inv := by
  obtain ⟨-, hsp⟩ := State.inv_iff.1 h
  exact State.inv_iff.2 ⟨hst, fun sp => by simpa only [State.SpaceInv, hmem, hcap] using hsp sp⟩

theorem exec_keeps_inv {i : Instr} {s t : State} (hi : s.Inv) (h : exec i s = .next t) : t.Inv := by
  obtain ⟨-, -, -, hcap⟩ := exec_keeps_host h
  obtain ⟨-, hsp⟩ := State.inv_iff.1 hi
  refine State.inv_iff.2 ⟨(exec_status h).2, fun sp => ?_⟩
  obtain ⟨hwf, hbelow, hmax⟩ := hsp sp
  rw [State.SpaceInv, hcap]
  rcases exec_mem_cases h sp with hm | ⟨bs, hin, hm⟩ <;> rw [hm]
  · exact ⟨hwf, hbelow, hmax⟩
  · have room := (inMemory_iff.1 hin).imp_left List.length_eq_zero_iff.1
    exact ⟨Mem.writeBytes_wf hwf 0 bs, Mem.writeBytes_below hbelow room, hmax⟩

@[simp] theorem regAssign_status (s : State) (v : HdrWord) (r : Reg) : (regAssign s v r).status = s.status := by
  cases r <;> rfl

@[simp] theorem regAssign_mem (s : State) (v : HdrWord) (r : Reg) (sp : Space) :
    (regAssign s v r).mem sp = s.mem sp := by
  cases r <;> simp [regAssign]

@[simp] theorem regAssign_capOf (s : State) (v : HdrWord) (r : Reg) (sp : Space) :
    (regAssign s v r).capOf sp = s.capOf sp := by
  cases r <;> simp [regAssign]

theorem hostReset_capOf {s t : State} (h : hostReset s = .next t) (sp : Space) : t.capOf sp = s.capOf sp := by
  cases h
  cases sp <;> rfl

theorem hostReset_status {s t : State} (h : hostReset s = .next t) : t.status = 0x00 := by
  cases h
  rfl

theorem hostReset_mem {s t : State} (h : hostReset s = .next t) (sp : Space) : t.mem sp = [] := by
  cases h
  cases sp <;> rfl

theorem hostReset_keeps_inv {s t : State} (hi : s.Inv) (h : hostReset s = .next t) : t.Inv := by
  obtain ⟨-, hsp⟩ := State.inv_iff.1 hi
  refine State.inv_iff.2 ⟨by rw [hostReset_status h]; decide, fun sp => ?_⟩
  rw [State.SpaceInv, hostReset_mem h, hostReset_capOf h]
  obtain ⟨-, -, hmax⟩ := hsp sp
  exact ⟨rfl, rfl, hmax⟩

theorem memWrite_capOf {s t : State} {sp : Space} {a : Nat} {bs : List Byte} (h : memWrite s sp a bs = .next t)
    (sp' : Space) : t.capOf sp' = s.capOf sp' := by
  obtain ⟨-, rfl⟩ := memWrite_eq_next_iff.1 h
  simp

theorem runCommand_keeps_inv {s t : State} (hi : s.Inv) (h : runCommand s = .next t) : t.Inv := by
  rcases runCommand_cases s with ⟨i, -, hrun⟩ | ⟨e, -, hrun⟩ <;> rw [hrun] at h
  · exact exec_keeps_inv hi h
  · cases h
    exact hi.setStatus .illegalOp

theorem runCommand_capOf {s t : State} (h : runCommand s = .next t) (sp : Space) : t.capOf sp = s.capOf sp := by
  rcases runCommand_cases s with ⟨i, -, hrun⟩ | ⟨e, -, hrun⟩ <;> rw [hrun] at h
  · obtain ⟨-, -, -, hcap⟩ := exec_keeps_host h
    exact hcap sp
  · cases h
    simp

/-- No step changes a capacity (00_scope R8). -/
theorem step_capOf {s t : State} (h : step s = .next t) (sp : Space) : t.capOf sp = s.capOf sp := by
  rcases step_cases h with ⟨-, rfl⟩ | ⟨v, rest, -, hcmd⟩ | ⟨r, v, rest, -, -, rfl⟩ | ⟨r, rest, -, -, rfl⟩ |
    ⟨fsp, a, bs, rest, -, hw⟩ | ⟨dsp, a, n, bs, rest, -, -, rfl⟩ | ⟨rest, -, hreset⟩
  · rfl
  · simpa using runCommand_capOf hcmd sp
  · simp
  · simp
  · simpa using memWrite_capOf hw sp
  · simp
  · simpa using hostReset_capOf hreset sp

theorem step_keeps_inv {s t : State} (hi : s.Inv) (h : step s = .next t) : t.Inv := by
  obtain ⟨hst, -⟩ := State.inv_iff.1 hi
  have taken (rest : List HostAction) : (s.setScript rest).Inv := hi.of_mem_eq hst (by simp) (by simp)
  rcases step_cases h with ⟨-, rfl⟩ | ⟨v, rest, -, hcmd⟩ | ⟨r, v, rest, -, -, rfl⟩ | ⟨r, rest, -, -, rfl⟩ |
    ⟨fsp, a, bs, rest, -, hw⟩ | ⟨dsp, a, n, bs, rest, -, -, rfl⟩ | ⟨rest, -, hreset⟩
  · exact hi
  · have sampled : ((s.setScript rest).setCmd (v.setWidth 8)).Inv := (taken rest).of_mem_eq hst (by simp) (by simp)
    exact runCommand_keeps_inv sampled hcmd
  · exact hi.of_mem_eq (by simpa using hst) (by simp) (by simp)
  · exact hi.of_mem_eq hst (by simp) (by simp)
  · exact (taken rest).memWrite hw
  · exact hi.of_mem_eq hst (by simp) (by simp)
  · exact hostReset_keeps_inv (taken rest) hreset

/-- Settles O59, by the kinds of step: an operation, a host access, a reset. -/
theorem stepKeepsTheInvariant : Obligations.StepKeepsTheInvariant :=
  fun _ _ hi h => ⟨step_keeps_inv hi h, step_capOf h⟩

end Sys2Proof.Machine

/-! ## 10_state: frames, read sets, stops, the host's accesses and reset (R21 to R24, R33, R36, R40, R41) -/

namespace Sys2Proof.Machine

/-! ### Reads and writes of a space -/

/-- A read depends on the space it reads and on the memory behind it. -/
theorem memRead_congr {s u : State} {sp : Space} (hcap : s.capOf sp = u.capOf sp) (hmem : s.mem sp = u.mem sp)
    (a n : Nat) : memRead s sp a n = memRead u sp a n := by
  rw [memRead, memRead, inMemory, inMemory, hcap, hmem]

theorem memRead_of_unwritten {s : State} {sp : Space} {a n j : Nat} (hroom : a + n ≤ s.capOf sp) (hlo : a ≤ j)
    (hhi : j < a + n) (hnone : (s.mem sp).read j = none) : memRead s sp a n = .refused (.unwrittenByte sp) := by
  rw [memRead, if_pos (inMemory_iff.2 (.inr hroom))]
  cases hr : (s.mem sp).readBytes a n with
  | none => rfl
  | some bs =>
    have written := Mem.readBytes_isSome_iff.1 ⟨bs, hr⟩ (j - a) (by omega)
    rw [Nat.add_sub_cancel' hlo, hnone] at written
    cases written

theorem memRead_zero_of_unwritten {s : State} {sp : Space} {n j : Nat} (hroom : n ≤ s.capOf sp) (hj : j < n)
    (hnone : (s.mem sp).read j = none) : memRead s sp 0 n = .refused (.unwrittenByte sp) :=
  memRead_of_unwritten (by omega) (Nat.zero_le j) (by omega) hnone

theorem memRead_of_written {s : State} {sp : Space} {n : Nat} (hroom : n ≤ s.capOf sp)
    (hsome : ∀ j, j < n → ((s.mem sp).read j).isSome = true) : ∃ bs, memRead s sp 0 n = .next bs :=
  memRead_of_hasBytes (fun j hj => ⟨Nat.lt_of_lt_of_le hj hroom, hsome j hj⟩) (Nat.zero_add n).le

/-- The stream read from `n` whole groups has `n` bytes. -/
theorem readStream_length_of_memRead {s : State} {sp : Space} {a n : Nat} {B : List Byte}
    (h : memRead s sp a (groupAddr n) = .next B) : (readStream B).length = n := by
  rw [readStream_length, memRead_length h, groupAddr]
  simp

/-- Bytes stored from address 0 up leave every byte of another space, and every byte above them, as it was. -/
theorem read_setMem_writeBytes_of_outside {s : State} {sp sp' : Space} {bs : List Byte} {a : Nat}
    (h : ¬ (sp = sp' ∧ a < bs.length)) :
    ((s.setMem sp' ((s.mem sp').writeBytes 0 bs)).mem sp).read a = (s.mem sp).read a := by
  by_cases hsp : sp = sp'
  · subst hsp
    rw [State.setMem_mem_self, Mem.read_writeBytes_of_ge (by simpa using h)]
  · rw [State.setMem_mem_of_ne _ _ _ _ hsp]

/-! ### The stream a header's groups carry -/

theorem lowField_eq_and (c : Byte) : lowField c = c &&& 3#8 := by
  have mask : fieldMask Config.fieldW = 3#8 := rfl
  simp [lowField, extractField, mask]

theorem decodeGroup_eq_groupValue (g : Group) : decodeGroup g = groupValue g.c0 g.c1 g.c2 g.c3 := by
  simp only [decodeGroup, groupValue, lowField_eq_and]

/-- Byte k of `ReadStream` is what the k-th group carries (R130). -/
theorem readStream_getElem? {B : List Byte} {k : Nat} {c0 c1 c2 c3 : Byte} (h0 : B[4 * k]? = some c0)
    (h1 : B[4 * k + 1]? = some c1) (h2 : B[4 * k + 2]? = some c2) (h3 : B[4 * k + 3]? = some c3) :
    (readStream B)[k]? = some (groupValue c0 c1 c2 c3) := by
  induction B using group_induction generalizing k with
  | short B hs =>
    obtain ⟨hlt, -⟩ := List.getElem?_eq_some_iff.1 h3
    omega
  | step d0 d1 d2 d3 B ih =>
    cases k with
    | zero =>
      simp only [Nat.mul_zero, Nat.zero_add, List.getElem?_cons_zero, List.getElem?_cons_succ, Option.some.injEq]
        at h0 h1 h2 h3
      subst h0 h1 h2 h3
      simp [decodeGroup_eq_groupValue]
    | succ k =>
      rw [readStream_cons, List.getElem?_cons_succ]
      exact ih h0 h1 h2 h3

/-- Stream byte k has a value exactly when its group has been written. -/
theorem streamAt_eq_some_iff {m : Mem} {k : Nat} {b : Byte} :
    streamAt m k = some b ↔ ∃ c0 c1 c2 c3, m.read (4 * k) = some c0 ∧ m.read (4 * k + 1) = some c1 ∧
      m.read (4 * k + 2) = some c2 ∧ m.read (4 * k + 3) = some c3 ∧ groupValue c0 c1 c2 c3 = b := by
  unfold streamAt
  cases m.read (4 * k) <;> cases m.read (4 * k + 1) <;> cases m.read (4 * k + 2) <;> cases m.read (4 * k + 3) <;> simp

/-- A byte of a group whose stream byte has a value has one. -/
theorem read_isSome_of_streamAt {m : Mem} {S : List Byte} (hS : ∀ k, k < S.length → streamAt m k = S[k]?) {j : Nat}
    (hj : j < 4 * S.length) : (m.read j).isSome = true := by
  have hk : j / 4 < S.length := by omega
  obtain ⟨c0, c1, c2, c3, h0, h1, h2, h3, -⟩ :=
    streamAt_eq_some_iff.1 ((hS (j / 4) hk).trans (List.getElem?_eq_getElem hk))
  have lane : j = 4 * (j / 4) ∨ j = 4 * (j / 4) + 1 ∨ j = 4 * (j / 4) + 2 ∨ j = 4 * (j / 4) + 3 := by omega
  rcases lane with hl | hl | hl | hl <;> rw [hl]
  · rw [h0]; rfl
  · rw [h1]; rfl
  · rw [h2]; rfl
  · rw [h3]; rfl

/-- The stream read from CB is the stream its groups carry. -/
theorem readStream_eq_of_streamAt {s : State} {B S : List Byte}
    (hB : memRead s .cb 0 (groupAddr S.length) = .next B) (hS : ∀ k, k < S.length → streamAt s.cb k = S[k]?) :
    readStream B = S := by
  have hl : (readStream B).length = S.length := readStream_length_of_memRead hB
  have byte {j : Nat} (hj : j < 4 * S.length) : B[j]? = s.cb.read j := by
    simpa using (memRead_get hB hj).symm
  refine List.ext_getElem? fun k => ?_
  by_cases hk : k < S.length
  · obtain ⟨c0, c1, c2, c3, h0, h1, h2, h3, hv⟩ :=
      streamAt_eq_some_iff.1 ((hS k hk).trans (List.getElem?_eq_getElem hk))
    rw [List.getElem?_eq_getElem hk, ← hv]
    exact readStream_getElem? ((byte (by omega)).trans h0) ((byte (by omega)).trans h1) ((byte (by omega)).trans h2)
      ((byte (by omega)).trans h3)
  · rw [List.getElem?_eq_none (by omega), List.getElem?_eq_none (by omega)]

/-- Parsing a serialized header gives the magic and the length back (R141). -/
@[simp] theorem parseHeader_serializeHeader (l : Word) : parseHeader (serializeHeader l) = (Config.magic, l) := by
  have rest : (le64 l).take Config.lenBytes = le64 l := List.take_of_length_le (le64_length l).le
  simp [parseHeader, serializeHeader, rest]

/-! ### Where the memory operations stop (R41, R206) -/

/-- The first `k` groups of CB lie below BUF_LEN when `k` is at most the capacity (R160, R165). -/
theorem groupAddr_le_bufLen {s : State} {k : Nat} (h : k ≤ capacity s) : groupAddr k ≤ s.bufLen.toNat :=
  (Nat.mul_le_mul_left _ h).trans (Nat.mul_div_le _ _)

/-- A group of CB with an unwritten byte stops the read of the groups up to it. -/
theorem memRead_groups_of_unwritten {s : State} {k j : Nat} (hc : HasRoom s .cb s.bufLen.toNat) (hk : k ≤ capacity s)
    (hj : j < groupAddr k) (hnone : s.cb.read j = none) :
    memRead s .cb 0 (groupAddr k) = .refused (.unwrittenByte .cb) :=
  memRead_zero_of_unwritten ((groupAddr_le_bufLen hk).trans hc) hj hnone

theorem execSrd_of_unwritten {s : State} {j : Nat} (hc : HasRoom s .cb s.bufLen.toNat)
    (hr : HasRoom s .sb (capacity s)) (hj : j < groupAddr (capacity s)) (hnone : s.cb.read j = none) :
    execSrd s = .refused (.unwrittenByte .cb) := by
  rw [execSrd, needRoom_of_room hc, needRoom_of_room hr, memRead_groups_of_unwritten hc le_rfl hj hnone,
    andThen_refused]

theorem execSwr_of_unwritten_sb {s : State} {j : Nat} (hb : ¬ s.bufLen.toNat < groupAddr s.strLen.toNat)
    (hc : HasRoom s .cb s.bufLen.toNat) (hr : HasRoom s .sb s.strLen.toNat) (hj : j < s.strLen.toNat)
    (hnone : s.sb.read j = none) : execSwr s = .refused (.unwrittenByte .sb) := by
  rw [execSwr_of_good hb, needRoom_of_room hc, needRoom_of_room hr,
    memRead_zero_of_unwritten (sp := .sb) hr hj hnone, andThen_refused]

theorem execSwr_of_unwritten_cb {s : State} {j : Nat} (hb : ¬ s.bufLen.toNat < groupAddr s.strLen.toNat)
    (hc : HasRoom s .cb s.bufLen.toNat) (hr : HasRoom s .sb s.strLen.toNat)
    (hs : ∀ i, i < s.strLen.toNat → (s.sb.read i).isSome = true) (hj : j < groupAddr s.strLen.toNat)
    (hnone : s.cb.read j = none) : execSwr s = .refused (.unwrittenByte .cb) := by
  have fits : s.strLen.toNat ≤ capacity s := by
    simp only [groupAddr, capacity, Config.groupN] at hb ⊢
    omega
  obtain ⟨S, hS⟩ := memRead_of_written hr hs
  rw [execSwr_of_good hb, needRoom_of_room hc, needRoom_of_room hr, hS, andThen_next,
    memRead_groups_of_unwritten hc fits hj hnone, andThen_refused]

theorem execEmbed_of_unwritten_cb {s : State} {j : Nat} (hb : ¬ capacity s < streamLen s.msgLen)
    (hc : HasRoom s .cb s.bufLen.toNat) (hr : HasRoom s .mb s.msgLen.toNat) (hj : j < groupAddr (streamLen s.msgLen))
    (hnone : s.cb.read j = none) : execEmbed s = .refused (.unwrittenByte .cb) := by
  rw [execEmbed_of_good hb, needRoom_of_room hc, needRoom_of_room hr,
    memRead_groups_of_unwritten hc (Nat.le_of_not_lt hb) hj hnone, andThen_refused]

theorem execEmbed_of_unwritten_mb {s : State} {j : Nat} (hb : ¬ capacity s < streamLen s.msgLen)
    (hc : HasRoom s .cb s.bufLen.toNat) (hr : HasRoom s .mb s.msgLen.toNat)
    (hs : ∀ i, i < groupAddr (streamLen s.msgLen) → (s.cb.read i).isSome = true) (hj : j < s.msgLen.toNat)
    (hnone : s.mb.read j = none) : execEmbed s = .refused (.unwrittenByte .mb) := by
  obtain ⟨B, hB⟩ := memRead_of_written ((groupAddr_le_bufLen (Nat.le_of_not_lt hb)).trans hc) hs
  rw [execEmbed_of_good hb, needRoom_of_room hc, needRoom_of_room hr, hB, andThen_next,
    memRead_zero_of_unwritten (sp := .mb) hr hj hnone, andThen_refused]

theorem execExtract_of_unwritten_header {s : State} {j : Nat} (hc : HasRoom s .cb s.bufLen.toNat)
    (hr : HasRoom s .mb (capacity s - 16)) (hs : ¬ capacity s < 16) (hj : j < groupAddr Config.headerSize)
    (hnone : s.cb.read j = none) : execExtract s = .refused (.unwrittenByte .cb) := by
  rw [execExtract_of_long hc hr hs, memRead_groups_of_unwritten hc (Nat.le_of_not_lt hs) hj hnone, andThen_refused]

/-- Past a header that passes both tests, EXTRACT reads the message's groups and stores the message. -/
theorem execExtract_of_validHeader {s : State} {H : List Byte} {l : Word} (hc : HasRoom s .cb s.bufLen.toNat)
    (hr : HasRoom s .mb (capacity s - 16)) (hs : ¬ capacity s < 16)
    (hH : memRead s .cb 0 (groupAddr Config.headerSize) = .next H)
    (hp : parseHeader (readStream H) = (Config.magic, l)) (hl : ¬ capacity s < streamLen l) :
    execExtract s = andThen (memRead s .cb (groupAddr Config.headerSize) (groupAddr l.toNat)) fun B =>
      andThen (memWrite s .mb 0 (readStream B)) fun t => done (t.setMsgLen l) := by
  rw [execExtract_of_long hc hr hs, hH, andThen_next, hp]
  simp only [headerVerdict_eq_none.2 ⟨rfl, hl⟩]

/-- A header that fails a test ends EXTRACT with the test's code. -/
theorem execExtract_of_badHeader {s : State} {H : List Byte} {e : Code} (hc : HasRoom s .cb s.bufLen.toNat)
    (hr : HasRoom s .mb (capacity s - 16)) (hs : ¬ capacity s < 16)
    (hH : memRead s .cb 0 (groupAddr Config.headerSize) = .next H)
    (he : headerVerdict (capacity s) (parseHeader (readStream H)).1 (parseHeader (readStream H)).2 = some e) :
    execExtract s = .next (s.setStatus e.byte) := by
  rw [execExtract_of_long hc hr hs, hH, andThen_next]
  simp only [he, raise_eq]

theorem execExtract_of_unwritten_message {s : State} {l : Word} {j : Nat} (hc : HasRoom s .cb s.bufLen.toNat)
    (hr : HasRoom s .mb (capacity s - 16)) (hs : ¬ capacity s < 16)
    (header : ∀ k, k < 16 → streamAt s.cb k = (serializeHeader l)[k]?) (hl : ¬ capacity s < streamLen l)
    (hlo : groupAddr Config.headerSize ≤ j) (hhi : j < groupAddr (streamLen l)) (hnone : s.cb.read j = none) :
    execExtract s = .refused (.unwrittenByte .cb) := by
  have hS : ∀ k, k < (serializeHeader l).length → streamAt s.cb k = (serializeHeader l)[k]? := by simpa using header
  have fits : groupAddr (streamLen l) ≤ s.capOf .cb := (groupAddr_le_bufLen (Nat.le_of_not_lt hl)).trans hc
  obtain ⟨H, hH⟩ := memRead_of_written ((groupAddr_le_bufLen (Nat.le_of_not_lt hs)).trans hc)
    fun i hi => read_isSome_of_streamAt hS ((serializeHeader_length l).symm ▸ hi)
  have hp : parseHeader (readStream H) = (Config.magic, l) := by
    rw [readStream_eq_of_streamAt (by simpa using hH) hS, parseHeader_serializeHeader]
  have split : groupAddr (streamLen l) = groupAddr Config.headerSize + groupAddr l.toNat := Nat.mul_add _ _ _
  rw [execExtract_of_validHeader hc hr hs hH hp hl,
    memRead_of_unwritten (split.symm.le.trans fits) hlo (split ▸ hhi) hnone, andThen_refused]

/-- Settles O41: the first room or the first byte that is missing, in the order of each meaning, is the stop. -/
theorem absentBytesStopTheOperation : Obligations.AbsentBytesStopTheOperation := by
  refine ⟨fun s => ?srd, fun s hfit => ?swr, fun s hfit => ?embed, fun s => ?extract⟩
  case srd =>
    refine ⟨fun hc => ?_, fun hc hr => ?_, fun hc hr j => ?_⟩
    · exact needRoom_of_less hc _
    · exact (needRoom_of_room hc _).trans (needRoom_of_less hr _)
    · exact execSrd_of_unwritten hc hr
  case swr =>
    have good := execSwr_of_good (Nat.not_lt.2 hfit)
    refine ⟨fun hc => ?_, fun hc hr => ?_, fun hc hr => ⟨fun j => ?_, fun hs j => ?_⟩⟩
    · exact good.trans (needRoom_of_less hc _)
    · exact good.trans ((needRoom_of_room hc _).trans (needRoom_of_less hr _))
    · exact execSwr_of_unwritten_sb (Nat.not_lt.2 hfit) hc hr
    · exact execSwr_of_unwritten_cb (Nat.not_lt.2 hfit) hc hr hs
  case embed =>
    have good := execEmbed_of_good (Nat.not_lt.2 hfit)
    refine ⟨fun hc => ?_, fun hc hr => ?_, fun hc hr => ⟨fun j => ?_, fun hs j => ?_⟩⟩
    · exact good.trans (needRoom_of_less hc _)
    · exact good.trans ((needRoom_of_room hc _).trans (needRoom_of_less hr _))
    · exact execEmbed_of_unwritten_cb (Nat.not_lt.2 hfit) hc hr
    · exact execEmbed_of_unwritten_mb (Nat.not_lt.2 hfit) hc hr hs
  case extract =>
    refine ⟨fun hc => ?_, fun hc hr => ?_, fun hc hr hlong => ⟨fun j => ?_, fun l j header hl hlo hhi => ?_⟩⟩
    · exact needRoom_of_less hc _
    · exact (needRoom_of_room hc _).trans (needRoom_of_less hr _)
    · exact execExtract_of_unwritten_header hc hr (Nat.not_lt.2 hlong)
    · have hhi' : j < groupAddr (streamLen l) := by
        simp only [groupAddr, streamLen, Config.groupN, Config.headerSize]
        omega
      exact execExtract_of_unwritten_message hc hr (Nat.not_lt.2 hlong) header (Nat.not_lt.2 hl) hlo hhi'

/-! ### Frames (R33, R36) -/

theorem execFext2_frame {ofs : BitVec 3} {s t : State} (h : execFext2 ofs s = .next t) :
    t = { s with fv := t.fv, status := t.status } := by
  rcases execFext2_next h with rfl | ⟨v, rfl⟩ <;> rfl

theorem execFins2_frame {ofs : BitVec 3} {s t : State} (h : execFins2 ofs s = .next t) :
    t = { s with pb := t.pb, status := t.status } := by
  rcases execFins2_next h with rfl | ⟨v, rfl⟩ <;> rfl

theorem execGdec_frame {s t : State} (h : execGdec s = .next t) : t = { s with pb := t.pb, status := t.status } := by
  rw [execGdec_next h]
  rfl

theorem execGenc_frame {s t : State} (h : execGenc s = .next t) :
    t = { s with ch0 := t.ch0, ch1 := t.ch1, ch2 := t.ch2, ch3 := t.ch3, status := t.status } := by
  rw [execGenc_next h]
  rfl

theorem execHser_frame {s t : State} (h : execHser s = .next t) : t = { s with hdr := t.hdr, status := t.status } := by
  obtain ⟨v, rfl⟩ : ∃ v, t = (s.setHdr v).setStatus 0x01 := ⟨_, execHser_next h⟩
  rfl

theorem execHpar_frame {s t : State} (h : execHpar s = .next t) :
    t = { s with hmagic := t.hmagic, msgLen := t.msgLen, status := t.status } := by
  obtain ⟨m, l, rfl⟩ : ∃ m l, t = ((s.setHmagic m).setMsgLen l).setStatus 0x01 := ⟨_, _, execHpar_next h⟩
  rfl

theorem execSrd_frame {s t : State} (h : execSrd s = .next t) :
    t = { s with sb := t.sb, strLen := t.strLen, status := t.status } := by
  obtain ⟨B, -, -, rfl⟩ := execSrd_next h
  rfl

theorem execSwr_frame {s t : State} (h : execSwr s = .next t) : t = { s with cb := t.cb, status := t.status } := by
  rcases execSwr_next h with ⟨-, rfl⟩ | ⟨-, S, B, B', -, -, -, -, rfl⟩ <;> rfl

theorem execEmbed_frame {s t : State} (h : execEmbed s = .next t) : t = { s with cb := t.cb, status := t.status } := by
  rcases execEmbed_next h with ⟨-, rfl⟩ | ⟨-, B, M, B', -, -, -, -, -, rfl⟩ <;> rfl

theorem execExtract_frame {s t : State} (h : execExtract s = .next t) :
    t = { s with mb := t.mb, msgLen := t.msgLen, status := t.status } := by
  rcases execExtract_next h with (rfl | rfl) | ⟨-, H, B, l, -, -, -, -, -, -, rfl⟩ <;> rfl

/-- The six operations that move no memory leave every space as it was. -/
theorem exec_mem_of_registerOperation {i : Instr} {s t : State} (h : exec i s = .next t) (hsrd : i ≠ .srd)
    (hswr : i ≠ .swr) (hembed : i ≠ .embed) (hextract : i ≠ .extract) (sp : Space) : t.mem sp = s.mem sp := by
  cases i with
  | fext2 ofs => rw [execFext2_frame h]; cases sp <;> rfl
  | fins2 ofs => rw [execFins2_frame h]; cases sp <;> rfl
  | gdec => rw [execGdec_frame h]; cases sp <;> rfl
  | genc => rw [execGenc_frame h]; cases sp <;> rfl
  | srd => exact absurd rfl hsrd
  | swr => exact absurd rfl hswr
  | hser => rw [execHser_frame h]; cases sp <;> rfl
  | hpar => rw [execHpar_frame h]; cases sp <;> rfl
  | embed => exact absurd rfl hembed
  | extract => exact absurd rfl hextract

theorem execSrd_read_of_outside {s t : State} (h : execSrd s = .next t) {sp : Space} {a : Nat}
    (hout : ¬ (sp = .sb ∧ a < capacity s)) : (t.mem sp).read a = (s.mem sp).read a := by
  obtain ⟨B, hB, -, rfl⟩ := execSrd_next h
  rw [← readStream_length_of_memRead hB] at hout
  simpa using read_setMem_writeBytes_of_outside hout

theorem execSwr_read_of_outside {s t : State} (h : execSwr s = .next t) {sp : Space} {a : Nat}
    (hout : ¬ (sp = .cb ∧ a < groupAddr s.strLen.toNat)) : (t.mem sp).read a = (s.mem sp).read a := by
  rcases execSwr_next h with ⟨-, rfl⟩ | ⟨-, S, B, B', -, -, -, hl, rfl⟩
  · simp
  · rw [← hl] at hout
    simpa using read_setMem_writeBytes_of_outside hout

theorem execEmbed_read_of_outside {s t : State} (h : execEmbed s = .next t) {sp : Space} {a : Nat}
    (hout : ¬ (sp = .cb ∧ a < groupAddr (streamLen s.msgLen))) : (t.mem sp).read a = (s.mem sp).read a := by
  rcases execEmbed_next h with ⟨-, rfl⟩ | ⟨-, B, M, B', -, -, -, -, hl, rfl⟩
  · simp
  · rw [← hl] at hout
    simpa using read_setMem_writeBytes_of_outside hout

theorem execExtract_read_of_outside {s t : State} (h : execExtract s = .next t) {sp : Space} {a : Nat}
    (hout : ¬ (sp = .mb ∧ t.status = 0x01#8 ∧ a < t.msgLen.toNat)) : (t.mem sp).read a = (s.mem sp).read a := by
  rcases execExtract_next h with (rfl | rfl) | ⟨-, H, B, l, -, -, -, -, -, hl, rfl⟩
  · simp
  · simp
  · have hout' : ¬ (sp = .mb ∧ a < (readStream B).length) := fun ⟨hsp, ha⟩ => hout ⟨hsp, rfl, hl ▸ ha⟩
    simpa using read_setMem_writeBytes_of_outside hout'

/-- Settles O42, one frame lemma an operation. -/
theorem frameOfRegisterOperations : Obligations.FrameOfRegisterOperations :=
  fun _ _ => ⟨fun _ => execFext2_frame, fun _ => execFins2_frame, execGdec_frame, execGenc_frame, execHser_frame,
    execHpar_frame, fun _ ⟨h, hsrd, hswr, hembed, hextract⟩ sp a =>
      congrArg (Mem.read · a) (exec_mem_of_registerOperation h hsrd hswr hembed hextract sp)⟩

/-- Settles O43: the frame of each operation, and the bytes outside what it stores. -/
theorem frameOfStoringOperations : Obligations.FrameOfStoringOperations :=
  fun _ _ => ⟨fun h => ⟨execSrd_frame h, fun _ _ => execSrd_read_of_outside h⟩,
    fun h => ⟨execSwr_frame h, fun _ _ => execSwr_read_of_outside h⟩,
    fun h => ⟨execEmbed_frame h, fun _ _ => execEmbed_read_of_outside h⟩,
    fun h => ⟨execExtract_frame h, fun _ _ => execExtract_read_of_outside h⟩⟩

/-- Settles O47: a borrowed space is in the frame of the operation that borrows it. -/
theorem borrowedSpacesAreKept : Obligations.BorrowedSpacesAreKept :=
  fun _ _ => ⟨fun h => by rw [execSrd_frame h], fun h => by rw [execExtract_frame h],
    fun h => by rw [execEmbed_frame h], fun h => by rw [execSwr_frame h]⟩

/-! ### Read sets (R36) -/

theorem capacity_congr {s u : State} (h : s.bufLen = u.bufLen) : capacity s = capacity u := by
  rw [capacity, capacity, h]

theorem hasRoom_congr {s u : State} {sp : Space} (hcap : s.capOf sp = u.capOf sp) {n : Nat} (h : HasRoom s sp n) :
    HasRoom u sp n := h.trans_eq hcap

theorem execFext2_wroteAlike {ofs : BitVec 3} {s u t : State} (hr : ReadsAlike (.fext2 ofs) s u)
    (h : execFext2 ofs s = .next t) : ∃ v, execFext2 ofs u = .next v ∧ WroteAlike (.fext2 ofs) t v := by
  obtain ⟨-, hpb⟩ := hr
  by_cases hl : OfsLegal ofs
  · rw [execFext2_of_legal hl] at h
    cases h
    exact ⟨_, execFext2_of_legal hl u, rfl, fun _ => by simp [hpb]⟩
  · rw [execFext2_of_illegal hl] at h
    cases h
    exact ⟨_, execFext2_of_illegal hl u, rfl, fun hok => by simp at hok⟩

theorem execFins2_wroteAlike {ofs : BitVec 3} {s u t : State} (hr : ReadsAlike (.fins2 ofs) s u)
    (h : execFins2 ofs s = .next t) : ∃ v, execFins2 ofs u = .next v ∧ WroteAlike (.fins2 ofs) t v := by
  obtain ⟨-, hpb, hfv⟩ := hr
  by_cases hl : OfsLegal ofs
  · rw [execFins2_of_legal hl] at h
    cases h
    exact ⟨_, execFins2_of_legal hl u, rfl, by simp [hpb, hfv]⟩
  · rw [execFins2_of_illegal hl] at h
    cases h
    exact ⟨_, execFins2_of_illegal hl u, rfl, hpb⟩

theorem execGdec_wroteAlike {s u t : State} (hr : ReadsAlike .gdec s u) (h : execGdec s = .next t) :
    ∃ v, execGdec u = .next v ∧ WroteAlike .gdec t v := by
  obtain ⟨-, hg⟩ := hr
  rw [execGdec_next h]
  exact ⟨_, execGdec_eq u, rfl, by simp [hg]⟩

theorem execGenc_wroteAlike {s u t : State} (hr : ReadsAlike .genc s u) (h : execGenc s = .next t) :
    ∃ v, execGenc u = .next v ∧ WroteAlike .genc t v := by
  obtain ⟨-, hpb, hg⟩ := hr
  rw [execGenc_next h]
  exact ⟨_, execGenc_eq u, rfl, congrArg₂ encodeGroup hpb hg⟩

theorem execHser_wroteAlike {s u t : State} (hr : ReadsAlike .hser s u) (h : execHser s = .next t) :
    ∃ v, execHser u = .next v ∧ WroteAlike .hser t v := by
  obtain ⟨-, hl⟩ := hr
  have hu := execHser_eq u
  rw [execHser_next h]
  rw [← hl] at hu
  generalize hdrOfBytes (serializeHeader s.msgLen) = v at hu ⊢
  exact ⟨_, hu, rfl, rfl⟩

theorem execHpar_wroteAlike {s u t : State} (hr : ReadsAlike .hpar s u) (h : execHpar s = .next t) :
    ∃ v, execHpar u = .next v ∧ WroteAlike .hpar t v := by
  obtain ⟨-, hh⟩ := hr
  have hu := execHpar_eq u
  rw [execHpar_next h]
  rw [← hh] at hu
  generalize parseHeader (hdrBytes s.hdr) = p at hu ⊢
  exact ⟨_, hu, rfl, rfl, rfl⟩

theorem execSrd_wroteAlike {s u t : State} (hr : ReadsAlike .srd s u) (h : execSrd s = .next t) :
    ∃ v, execSrd u = .next v ∧ WroteAlike .srd t v := by
  obtain ⟨hcap, hbuf, hcb⟩ := hr
  obtain ⟨hc, hroom⟩ := execSrd_room h
  obtain ⟨B, hB, -, rfl⟩ := execSrd_next h
  have hl := readStream_length_of_memRead hB
  rw [memRead_congr (hcap .cb) hcb] at hB
  rw [hbuf] at hc
  rw [capacity_congr hbuf] at hB hroom hl ⊢
  obtain ⟨-, hu⟩ := execSrd_of_reads (hasRoom_congr (hcap .cb) hc) (hasRoom_congr (hcap .sb) hroom) hB
  refine ⟨_, hu, rfl, rfl, fun a ha => ?_⟩
  have ha' : a < (readStream B).length := hl ▸ ha.trans_le (Nat.mod_le _ _)
  simp [Mem.read_writeBytes_zero, ha']

theorem execSwr_wroteAlike {s u t : State} (hr : ReadsAlike .swr s u) (h : execSwr s = .next t) :
    ∃ v, execSwr u = .next v ∧ WroteAlike .swr t v := by
  obtain ⟨hcap, hbuf, hstr, hcb, hsb⟩ := hr
  rcases execSwr_next h with ⟨hbad, rfl⟩ | ⟨hgood, S, B, B', hS, hB, hw, -, rfl⟩
  · rw [hbuf, hstr] at hbad
    exact ⟨_, execSwr_of_bad hbad, rfl, hcb⟩
  · obtain ⟨hc, -⟩ := execSwr_room h hgood
    rw [memRead_congr (hcap .sb) hsb, hstr] at hS
    rw [memRead_congr (hcap .cb) hcb, hstr] at hB
    rw [hbuf] at hc
    rw [hbuf, hstr] at hgood
    obtain ⟨B'', hw', -, hu⟩ := execSwr_of_reads hgood (hasRoom_congr (hcap .cb) hc) hS hB
    cases hw.symm.trans hw'
    exact ⟨_, hu, rfl, by simp [hcb]⟩

theorem execEmbed_wroteAlike {s u t : State} (hr : ReadsAlike .embed s u) (h : execEmbed s = .next t) :
    ∃ v, execEmbed u = .next v ∧ WroteAlike .embed t v := by
  obtain ⟨hcap, hbuf, hmsg, hcb, hmb⟩ := hr
  rcases execEmbed_next h with ⟨hbad, rfl⟩ | ⟨hgood, B, M, B', hB, hM, -, hw, -, rfl⟩
  · rw [capacity_congr hbuf, hmsg] at hbad
    exact ⟨_, execEmbed_of_bad hbad, rfl, hcb⟩
  · obtain ⟨hc, -⟩ := execEmbed_room h hgood
    rw [memRead_congr (hcap .cb) hcb, hmsg] at hB
    rw [memRead_congr (hcap .mb) hmb, hmsg] at hM
    rw [hbuf] at hc
    rw [capacity_congr hbuf, hmsg] at hgood
    obtain ⟨B'', -, hw', -, hu⟩ := execEmbed_of_reads hgood (hasRoom_congr (hcap .cb) hc) hB hM
    cases hw.symm.trans hw'
    exact ⟨_, hu, rfl, by simp [hcb]⟩

/-- What EXTRACT does when the header passes both tests and the message's groups are there. -/
theorem execExtract_of_reads {s : State} {H B : List Byte} {l : Word} (hc : HasRoom s .cb s.bufLen.toNat)
    (hr : HasRoom s .mb (capacity s - 16)) (hs : ¬ capacity s < 16)
    (hH : memRead s .cb 0 (groupAddr Config.headerSize) = .next H)
    (hp : parseHeader (readStream H) = (Config.magic, l)) (hl : ¬ capacity s < streamLen l)
    (hB : memRead s .cb (groupAddr Config.headerSize) (groupAddr l.toNat) = .next B) :
    execExtract s =
      .next (((s.setMem .mb (s.mb.writeBytes 0 (readStream B))).setMsgLen l).setStatus 0x01) := by
  have room : (readStream B).length ≤ s.capOf .mb := by
    have := readStream_length_of_memRead hB
    simp only [HasRoom, streamLen, Config.headerSize] at hr hl
    omega
  rw [execExtract_of_validHeader hc hr hs hH hp hl, hB, andThen_next, memWrite_of_hasRoom room]
  rfl

/-- The three ways EXTRACT ends, with what it read: no room for a header, a header that fails a test, a message. -/
theorem execExtract_cases {s t : State} (h : execExtract s = .next t) :
    (capacity s < 16 ∧ t = s.setStatus 0x03) ∨
    (¬ capacity s < 16 ∧ ∃ H, memRead s .cb 0 (groupAddr Config.headerSize) = .next H ∧
      ((∃ e, headerVerdict (capacity s) (parseHeader (readStream H)).1 (parseHeader (readStream H)).2 = some e ∧
        t = s.setStatus e.byte) ∨
      (∃ B l, parseHeader (readStream H) = (Config.magic, l) ∧ ¬ capacity s < streamLen l ∧
        memRead s .cb (groupAddr Config.headerSize) (groupAddr l.toNat) = .next B ∧
        t = ((s.setMem .mb (s.mb.writeBytes 0 (readStream B))).setMsgLen l).setStatus 0x01))) := by
  obtain ⟨hc, hm⟩ := execExtract_room h
  by_cases hs : capacity s < 16
  · rw [execExtract_of_short hc hs] at h
    cases h
    exact .inl ⟨hs, rfl⟩
  · have hlong := h
    rw [execExtract_of_long hc hm hs] at hlong
    obtain ⟨H, hH, -⟩ := andThen_eq_next_iff.1 hlong
    refine .inr ⟨hs, H, hH, ?_⟩
    cases hv : headerVerdict (capacity s) (parseHeader (readStream H)).1 (parseHeader (readStream H)).2 with
    | some e =>
      rw [execExtract_of_badHeader hc hm hs hH hv] at h
      cases h
      exact .inl ⟨e, rfl, rfl⟩
    | none =>
      obtain ⟨hmagic, hl⟩ := headerVerdict_eq_none.1 hv
      have hp : parseHeader (readStream H) = (Config.magic, (parseHeader (readStream H)).2) := Prod.ext hmagic rfl
      have hvalid := h
      rw [execExtract_of_validHeader hc hm hs hH hp hl] at hvalid
      obtain ⟨B, hB, -⟩ := andThen_eq_next_iff.1 hvalid
      rw [execExtract_of_reads hc hm hs hH hp hl hB] at h
      cases h
      exact .inr ⟨B, _, hp, hl, hB, rfl⟩

/-- No test of the header fails with OK. -/
theorem headerVerdict_ne_ok {a : Nat} {m l : Word} {e : Code} (h : headerVerdict a m l = some e) :
    e.byte ≠ 0x01#8 := by
      rcases headerVerdict_eq_some h with ⟨-, rfl⟩ | ⟨-, -, rfl⟩ <;> decide

theorem execExtract_wroteAlike {s u t : State} (hr : ReadsAlike .extract s u) (h : execExtract s = .next t) :
    ∃ v, execExtract u = .next v ∧ WroteAlike .extract t v := by
  obtain ⟨hcap, hbuf, hcb⟩ := hr
  have hcapacity := capacity_congr hbuf
  have hread := memRead_congr (hcap .cb) hcb
  obtain ⟨hc, hm⟩ := execExtract_room h
  have hc' : HasRoom u .cb u.bufLen.toNat := hasRoom_congr (hcap .cb) (hbuf ▸ hc)
  have hm' : HasRoom u .mb (capacity u - 16) := hasRoom_congr (hcap .mb) (hcapacity ▸ hm)
  rcases execExtract_cases h with ⟨hs, rfl⟩ | ⟨hs, H, hH, hend⟩ <;> rw [hcapacity] at hs
  · exact ⟨_, execExtract_of_short hc' hs, rfl, fun hok => by simp at hok⟩
  · rw [hread] at hH
    rcases hend with ⟨e, hv, rfl⟩ | ⟨B, l, hp, hl, hB, rfl⟩
    · rw [hcapacity] at hv
      exact ⟨_, execExtract_of_badHeader hc' hm' hs hH hv, rfl, fun hok => absurd hok (headerVerdict_ne_ok hv)⟩
    · rw [hcapacity] at hl
      rw [hread] at hB
      refine ⟨_, execExtract_of_reads hc' hm' hs hH hp hl hB, rfl, fun _ => ⟨rfl, fun a ha => ?_⟩⟩
      have stored : a < (readStream B).length := (readStream_length_of_memRead hB).symm ▸ ha
      simp [Mem.read_writeBytes_zero, stored]

/-- Settles O44, one lemma an operation: it answers alike, and what it writes is a function of what it reads. -/
theorem operationsReadOnlyTheirReadSet : Obligations.OperationsReadOnlyTheirReadSet := by
  intro i s u t hr h
  cases i with
  | fext2 ofs => exact execFext2_wroteAlike hr h
  | fins2 ofs => exact execFins2_wroteAlike hr h
  | gdec => exact execGdec_wroteAlike hr h
  | genc => exact execGenc_wroteAlike hr h
  | srd => exact execSrd_wroteAlike hr h
  | swr => exact execSwr_wroteAlike hr h
  | hser => exact execHser_wroteAlike hr h
  | hpar => exact execHpar_wroteAlike hr h
  | embed => exact execEmbed_wroteAlike hr h
  | extract => exact execExtract_wroteAlike hr h

/-! ### The host's accesses (R21 to R24) -/

theorem hostWrite_of_ne_cmd {r : Reg} (h : r ≠ .cmd) (v : HdrWord) (s : State) :
    hostWrite r v s = .next (regAssign s v r) := by
  unfold hostWrite
  split
  · exact absurd rfl h
  · rfl

theorem Reg.access_eq_writeOnly_iff {r : Reg} : r.access = .writeOnly ↔ r = .cmd := by
  cases r <;> decide

theorem hostRead_of_ne_cmd {r : Reg} (h : r ≠ .cmd) (s : State) :
    hostRead r s = .next (s.note (.reg r (regValue s r))) := by
  unfold hostRead
  split
  · rename_i hw
    exact absurd (Reg.access_eq_writeOnly_iff.1 hw) h
  · rfl
  · rfl

/-- After an assignment by the host every register but the assigned one holds its value, and so does a read-only one; the
assigned register holds the low bits of what the bus carries (R23). -/
theorem regValue_regAssign (s : State) (v : HdrWord) (r q : Reg) :
    regValue (regAssign s v r) q =
      if q = r ∧ r.access ≠ .readOnly then (v.setWidth r.width).setWidth 128 else regValue s q := by
  cases r with
  | hdr => cases q <;> simp [regAssign, regValue, Reg.access, Reg.width]
  | _ => cases q <;> rfl

theorem regAssign_of_readOnly {r : Reg} (h : r.access = .readOnly) (s : State) (v : HdrWord) : regAssign s v r = s := by
  cases r with
  | status => rfl
  | hmagic => rfl
  | magic => rfl
  | _ => cases h

@[simp] theorem regValue_setScript (s : State) (l : List HostAction) (r : Reg) :
    regValue (s.setScript l) r = regValue s r := by
  cases r <;> rfl

theorem step_of_write {s : State} {r : Reg} {v : HdrWord} {rest : List HostAction} (hs : s.script = .wr r v :: rest)
    (hr : r ≠ .cmd) : step s = .next (regAssign (s.setScript rest) v r) :=
  (step_of_action hs).trans (hostWrite_of_ne_cmd hr v _)

theorem step_of_read {s : State} {r : Reg} {rest : List HostAction} (hs : s.script = .rd r :: rest) (hr : r ≠ .cmd) :
    step s = .next ((s.setScript rest).note (.reg r (regValue s r))) := by
  rw [step_of_action hs, hostAct, hostRead_of_ne_cmd hr, regValue_setScript]

/-- Settles O52: the four kinds of register are the widths and the access column of R21. -/
theorem hostWritesRegisters : Obligations.HostWritesRegisters := by
  intro s r v rest hs hr
  have value := regValue_regAssign (s.setScript rest) v r
  refine ⟨_, step_of_write hs hr, fun h => ?readOnly, fun h => ?byte, fun h hv => ?word, fun h => ?hdr,
    fun q hq => ?others, fun sp => ?spaces⟩
  case readOnly =>
    have ro : r.access = .readOnly := by rcases h with rfl | rfl | rfl <;> rfl
    exact regAssign_of_readOnly ro _ v
  case byte =>
    obtain ⟨hwritable, hwidth⟩ : r.access ≠ .readOnly ∧ r.width = 8 := by
      rcases h with rfl | rfl | rfl | rfl | rfl | rfl <;> decide
    rw [value, if_pos ⟨rfl, hwritable⟩, hwidth, BitVec.toNat_setWidth_of_le (by decide), BitVec.toNat_setWidth]
  case word =>
    obtain ⟨hwritable, hwidth⟩ : r.access ≠ .readOnly ∧ r.width = 64 := by
      rcases h with rfl | rfl | rfl <;> decide
    rw [value, if_pos ⟨rfl, hwritable⟩, hwidth]
    apply BitVec.eq_of_toNat_eq
    rw [BitVec.toNat_setWidth_of_le (by decide), BitVec.toNat_setWidth, Nat.mod_eq_of_lt hv]
  case hdr =>
    subst h
    rw [value, if_pos ⟨rfl, by decide⟩]
    simp [Reg.width]
  case others => rw [value, if_neg fun ⟨h, _⟩ => hq h, regValue_setScript]
  case spaces => simp

/-- Settles O53: a read of CMD is refused, any other leaves its value in `seen`. -/
theorem hostReadsRegisters : Obligations.HostReadsRegisters := by
  intro s r rest hs
  refine ⟨fun hr => step_of_read hs hr, ?_⟩
  rintro rfl
  exact step_of_action hs

/-- Settles O54: MAGIC is read as any register, and its value is no field of the state. -/
theorem magicIsHardwired : Obligations.MagicIsHardwired :=
  fun _ _ _ => ⟨fun hs => step_of_read hs (by decide), fun hs => step_of_write hs (by decide)⟩

/-! ### Register numbers -/

theorem Reg.ofNumber_number (r : Reg) : Reg.ofNumber r.number = some r := by
  cases r <;> rfl

theorem Reg.number_lt (r : Reg) : r.number < 14 := by
  cases r <;> decide

theorem Reg.number_of_ofNumber {n : Nat} {r : Reg} (h : Reg.ofNumber n = some r) : r.number = n := by
  unfold Reg.ofNumber at h
  split at h <;> cases h <;> rfl

/-- Settles O55: the numbers of R21, and `ofNumber` undoes `number` both ways. -/
theorem registerNumbersAreIdentities : Obligations.RegisterNumbersAreIdentities :=
  ⟨by decide, fun r => ⟨r.ofNumber_number, r.number_lt⟩, fun _ _ => Reg.number_of_ofNumber⟩

/-! ### Reset (R40, R41) -/

theorem step_of_reset {s : State} {rest : List HostAction} (hs : s.script = .reset :: rest) :
    step s = hostReset (s.setScript rest) := step_of_action hs

theorem State.reset_mem (sp : Space) : State.reset.mem sp = [] := by
  cases sp <;> rfl

theorem regValue_magic (s : State) : regValue s .magic = 0xF3D37B0C676EDCA6#128 := rfl

/-- Settles O56: neither reset leaves an action of the core, and MAGIC is no state. -/
theorem resetLeavesIdle : Obligations.ResetLeavesIdle := by
  refine ⟨⟨rfl, regValue_magic _, step_of_idle rfl⟩, fun s rest hs => ?_⟩
  have answers : ∃ t, hostReset (s.setScript rest) = .next t := ⟨_, rfl⟩
  obtain ⟨t, ht⟩ := answers
  exact ⟨t, (step_of_reset hs).trans ht, hostReset_status ht, regValue_magic t, step_of_idle rfl⟩

/-- Settles O57: either reset leaves every space with no entry. -/
theorem resetLeavesBytesWithoutValue : Obligations.ResetLeavesBytesWithoutValue := by
  refine ⟨fun sp a => ?_, fun s t rest hs ht sp a => ?_⟩
  · rw [State.reset_mem]
    rfl
  · rw [hostReset_mem ((step_of_reset hs).symm.trans ht)]
    rfl

/-- Settles O60: an empty space is canonical and inside any capacity. -/
theorem resetMeetsTheInvariant : Obligations.ResetMeetsTheInvariant := by
  refine State.inv_iff.2 ⟨by decide, fun sp => ?_⟩
  rw [State.SpaceInv, State.reset_mem]
  cases sp <;> exact ⟨rfl, rfl, le_rfl⟩

end Sys2Proof.Machine

/-! ## 20_memory: wide accesses, read after write, disjoint writes (R50, R59, R63, R64) -/

namespace Sys2Proof.Machine

/-! ### Two writes to one space -/

theorem Mem.cells_append (a : Nat) (x y : List Byte) :
    Mem.cells a (x ++ y) = Mem.cells a x ++ Mem.cells (a + x.length) y := by
  induction x generalizing a with
  | nil => rfl
  | cons b x ih => simp [Mem.cells, ih, Nat.add_assoc, Nat.add_comm 1]

/-- Below the range of a write lies what lay there before, in the order it had. -/
theorem Mem.writeBytes_filter_lt (m : Mem) (a : Nat) (bs : List Byte) :
    (m.writeBytes a bs).filter (fun c => decide (c.1 < a)) = m.filter (fun c => decide (c.1 < a)) := by
  have new : (Mem.cells a bs).filter (fun c => decide (c.1 < a)) = [] :=
    List.filter_eq_nil_iff.2 fun c hc => by simpa using (Mem.cells_addr hc).1
  have above : (m.filter fun c => decide (a + bs.length ≤ c.1)).filter (fun c => decide (c.1 < a)) = [] :=
    List.filter_eq_nil_iff.2 fun c hc => by
      simp only [List.mem_filter, decide_eq_true_eq] at hc ⊢
      omega
  simp [Mem.writeBytes, new, above]

/-- Below the end of a write lie the bytes below its range, then the written ones. -/
theorem Mem.writeBytes_filter_lt_end (m : Mem) (a : Nat) (bs : List Byte) :
    (m.writeBytes a bs).filter (fun c => decide (c.1 < a + bs.length)) =
      m.filter (fun c => decide (c.1 < a)) ++ Mem.cells a bs := by
  have below : (m.filter fun c => decide (c.1 < a)).filter (fun c => decide (c.1 < a + bs.length)) =
      m.filter fun c => decide (c.1 < a) :=
    List.filter_eq_self.2 fun c hc => by
      simp only [List.mem_filter, decide_eq_true_eq] at hc ⊢
      omega
  have new : (Mem.cells a bs).filter (fun c => decide (c.1 < a + bs.length)) = Mem.cells a bs :=
    List.filter_eq_self.2 fun c hc => by simpa using (Mem.cells_addr hc).2
  have above :
      (m.filter fun c => decide (a + bs.length ≤ c.1)).filter (fun c => decide (c.1 < a + bs.length)) = [] :=
    List.filter_eq_nil_iff.2 fun c hc => by
      simp only [List.mem_filter, decide_eq_true_eq] at hc ⊢
      omega
  rw [Mem.writeBytes, List.filter_append, List.filter_append, below, new, above, List.append_nil]

/-- From any address past a write up lies what lay there before. -/
theorem Mem.writeBytes_filter_ge {a k : Nat} {bs : List Byte} (m : Mem) (hk : a + bs.length ≤ k) :
    (m.writeBytes a bs).filter (fun c => decide (k ≤ c.1)) = m.filter (fun c => decide (k ≤ c.1)) := by
  have below : (m.filter fun c => decide (c.1 < a)).filter (fun c => decide (k ≤ c.1)) = [] :=
    List.filter_eq_nil_iff.2 fun c hc => by
      simp only [List.mem_filter, decide_eq_true_eq] at hc ⊢
      omega
  have new : (Mem.cells a bs).filter (fun c => decide (k ≤ c.1)) = [] :=
    List.filter_eq_nil_iff.2 fun c hc => by
      have := Mem.cells_addr hc
      simp only [decide_eq_true_eq]
      omega
  have above : (m.filter fun c => decide (a + bs.length ≤ c.1)).filter (fun c => decide (k ≤ c.1)) =
      m.filter fun c => decide (k ≤ c.1) := by
    rw [List.filter_filter]
    refine List.filter_congr fun c _ => ?_
    by_cases hc : k ≤ c.1
    · simp [hc, hk.trans hc]
    · simp [hc]
  rw [Mem.writeBytes, List.filter_append, List.filter_append, below, new, above]
  rfl

/-- Writing again what was just written changes nothing, in a memory of any form. -/
theorem Mem.writeBytes_idem (m : Mem) (a : Nat) (bs : List Byte) :
    (m.writeBytes a bs).writeBytes a bs = m.writeBytes a bs := by
  conv_lhs => rw [Mem.writeBytes, Mem.writeBytes_filter_lt, Mem.writeBytes_filter_ge m le_rfl]
  rfl

/-- A write of two sequences in a row is a write of the first, then of the second where the first ends. -/
theorem Mem.writeBytes_append (m : Mem) (a : Nat) (x y : List Byte) :
    m.writeBytes a (x ++ y) = (m.writeBytes a x).writeBytes (a + x.length) y := by
  conv_rhs => rw [Mem.writeBytes, Mem.writeBytes_filter_lt_end, Mem.writeBytes_filter_ge m (Nat.le_add_right _ _)]
  simp [Mem.writeBytes, Mem.cells_append, Nat.add_assoc]

/-- In a canonical memory, writes of disjoint ranges commute: every address reads alike after both. -/
theorem Mem.writeBytes_comm {m : Mem} (hm : m.wf = true) {a b : Nat} {x y : List Byte}
    (hd : a + x.length ≤ b ∨ b + y.length ≤ a) :
    (m.writeBytes a x).writeBytes b y = (m.writeBytes b y).writeBytes a x := by
  refine Mem.ext_of_read (Mem.writeBytes_wf (Mem.writeBytes_wf hm a x) b y)
    (Mem.writeBytes_wf (Mem.writeBytes_wf hm b y) a x) fun z => ?_
  simp only [Mem.read_writeBytes]
  by_cases ha : a ≤ z ∧ z < a + x.length
  · rw [if_neg (by omega : ¬ (b ≤ z ∧ z < b + y.length)), if_pos ha, if_pos ha]
  · rw [if_neg ha, if_neg ha]

/-! ### Accesses of the machine -/

@[simp] theorem State.setMem_setMem (s : State) (sp : Space) (m m' : Mem) :
    (s.setMem sp m).setMem sp m' = s.setMem sp m' := by
  cases sp <;> rfl

@[simp] theorem inMemory_setMem (s : State) (sp sp' : Space) (m : Mem) (a n : Nat) :
    inMemory (s.setMem sp m) sp' a n = inMemory s sp' a n := by
  simp [inMemory]

/-- An access has memory behind it when its two parts have. -/
theorem inMemory_add (s : State) (sp : Space) (a n k : Nat) :
    inMemory s sp a (n + k) = (inMemory s sp a n && inMemory s sp (a + n) k) := by
  rw [Bool.eq_iff_iff, Bool.and_eq_true]
  simp only [inMemory_iff]
  omega

theorem memWrite_of_inMemory {s : State} {sp : Space} {a : Nat} {bs : List Byte}
    (h : inMemory s sp a bs.length = true) :
    memWrite s sp a bs = .next (s.setMem sp ((s.mem sp).writeBytes a bs)) := if_pos h

theorem memWrite_of_not_inMemory {s : State} {sp : Space} {a : Nat} {bs : List Byte}
    (h : ¬ inMemory s sp a bs.length = true) : memWrite s sp a bs = .fault (.beyondMemory sp) := if_neg h

/-- A write of two sequences in a row is two writes, with the same stop if either has one. -/
theorem memWrite_append (s : State) (sp : Space) (a : Nat) (x y : List Byte) :
    memWrite s sp a (x ++ y) = andThen (memWrite s sp a x) fun t => memWrite t sp (a + x.length) y := by
  have both := inMemory_add s sp a x.length y.length
  rw [← List.length_append] at both
  by_cases hx : inMemory s sp a x.length = true
  · rw [memWrite_of_inMemory hx, andThen_next, memWrite, memWrite, both, hx, inMemory_setMem, Bool.true_and,
      State.setMem_mem_self, State.setMem_setMem, Mem.writeBytes_append]
  · rw [memWrite_of_not_inMemory hx, andThen_fault, memWrite_of_not_inMemory (by rw [both]; simp [hx])]

/-- A read answers a sequence when each of its bytes has memory behind it and that value. -/
theorem memRead_eq_next_iff_forall {s : State} {sp : Space} {a n : Nat} {bs : List Byte} :
    memRead s sp a n = .next bs ↔
      bs.length = n ∧ ∀ j b, bs[j]? = some b → a + j < s.capOf sp ∧ (s.mem sp).read (a + j) = some b := by
  rw [memRead_eq_next_iff, Mem.readBytes_eq_some_iff, inMemory_iff]
  constructor
  · rintro ⟨hin, hl, hread⟩
    refine ⟨hl, fun j b hj => ?_⟩
    obtain ⟨hlt, -⟩ := List.getElem?_eq_some_iff.1 hj
    exact ⟨by omega, (hread j (hl ▸ hlt)).trans hj⟩
  · rintro ⟨rfl, hbytes⟩
    refine ⟨?_, rfl, fun j hj => ?_⟩
    · rcases Nat.eq_zero_or_pos bs.length with hz | hz
      · exact .inl hz
      · obtain ⟨hlast, -⟩ := hbytes (bs.length - 1) _ (List.getElem?_eq_getElem (by omega))
        exact .inr (by omega)
    · rw [List.getElem?_eq_getElem hj]
      exact (hbytes j _ (List.getElem?_eq_getElem hj)).2

theorem memRead_one_eq_next_iff {s : State} {sp : Space} {a : Nat} {b : Byte} :
    memRead s sp a 1 = .next [b] ↔ a < s.capOf sp ∧ (s.mem sp).read a = some b := by
  rw [memRead_eq_next_iff_forall]
  constructor
  · rintro ⟨-, h⟩
    exact h 0 b rfl
  · intro h
    refine ⟨rfl, fun j c hj => ?_⟩
    obtain ⟨rfl, rfl⟩ : j = 0 ∧ b = c := by simpa [List.getElem?_singleton] using hj
    exact h

/-! ### The statements -/

/-- Settles O20: SRD changes none of what it reads, and writing its stream again changes nothing. -/
theorem srdTwiceIsSrdOnce : Obligations.SrdTwiceIsSrdOnce := by
  intro s t h
  obtain ⟨hcb, hsb⟩ := execSrd_room h
  obtain ⟨B, hB, -, ht⟩ := execSrd_next h
  have hbuf : t.bufLen = s.bufLen := by simp [ht]
  have hcap (sp : Space) : t.capOf sp = s.capOf sp := by simp [ht]
  have hread : memRead t .cb 0 (groupAddr (capacity t)) = .next B := by
    rw [capacity_congr hbuf, memRead_congr (hcap .cb) (by simp [ht]), hB]
  obtain ⟨-, again⟩ := execSrd_of_reads (hbuf ▸ hasRoom_congr (hcap .cb).symm hcb)
    (capacity_congr hbuf ▸ hasRoom_congr (hcap .sb).symm hsb) hread
  have same : t.sb.writeBytes 0 (readStream B) = t.sb := by simp [ht, Mem.writeBytes_idem]
  rw [same, capacity_congr hbuf] at again
  refine again.trans (congrArg _ ?_)
  rw [ht]
  rfl

/-- Settles O49: a write by `memWrite_append` at its first byte, a read byte by byte. -/
theorem wideAccessIsBytewise : Obligations.WideAccessIsBytewise := by
  refine ⟨fun s sp a b bs => memWrite_append s sp a [b] bs, fun s sp a n bs => ?_⟩
  simp only [memRead_one_eq_next_iff]
  exact memRead_eq_next_iff_forall

/-- Settles O50: the written bytes read back, and a byte outside them is below, above or in another space. -/
theorem readGivesTheLastWrite : Obligations.ReadGivesTheLastWrite := by
  intro s t sp a bs h
  obtain ⟨hin, rfl⟩ := memWrite_eq_next_iff.1 h
  refine ⟨memRead_eq_next_iff.2 ⟨by rwa [inMemory_setMem], ?_⟩, fun sp' x hx => ?_⟩
  · rw [State.setMem_mem_self, Mem.readBytes_writeBytes]
  · by_cases hsp : sp' = sp
    · subst hsp
      rw [State.setMem_mem_self, Mem.read_writeBytes, if_neg (by simpa using hx)]
    · rw [State.setMem_mem_of_ne _ _ _ _ hsp]

/-- Settles O51: both orders have room, and the contents commute in canonical form. -/
theorem disjointWritesCommute : Obligations.DisjointWritesCommute := by
  intro s sp a b x y hwf hd hx hy
  have roomX (m : Mem) : inMemory (s.setMem sp m) sp a x.length = true := by
    rw [inMemory_setMem]
    exact inMemory_iff.2 (.inr hx)
  have roomY (m : Mem) : inMemory (s.setMem sp m) sp b y.length = true := by
    rw [inMemory_setMem]
    exact inMemory_iff.2 (.inr hy)
  rw [memWrite_of_inMemory (inMemory_iff.2 (.inr hx)), memWrite_of_inMemory (inMemory_iff.2 (.inr hy)),
    andThen_next, andThen_next, memWrite_of_inMemory (roomY _), memWrite_of_inMemory (roomX _)]
  simp only [State.setMem_mem_self, State.setMem_setMem, Mem.writeBytes_comm hwf hd]

end Sys2Proof.Machine

/-! ## 30_encoding: the command byte (R80 to R84), recognition of a stream (R95), the carrier (R55, R90) -/

namespace Sys2Proof

/-! ### The fields of an operation's command byte (R80, R83) -/

/-- The operation code of an operation, its row of the opcode map (R83). -/
def Instr.opField : Instr → BitVec 4
  | .fext2 _ => 0x1
  | .fins2 _ => 0x2
  | .gdec => 0x3
  | .genc => 0x4
  | .srd => 0x5
  | .swr => 0x6
  | .hser => 0x7
  | .hpar => 0x8
  | .embed => 0x9
  | .extract => 0xA

/-- Field OFS of an operation's byte: its immediate, and 000 in format N (R80). -/
def Instr.ofsField : Instr → BitVec 3
  | .fext2 ofs => ofs
  | .fins2 ofs => ofs
  | .gdec => 0
  | .genc => 0
  | .srd => 0
  | .swr => 0
  | .hser => 0
  | .hpar => 0
  | .embed => 0
  | .extract => 0

/-- A command byte is its three fields. -/
theorem cmdByte_ext {c d : Byte} (hz : cmdZ c = cmdZ d) (hop : cmdOp c = cmdOp d) (hofs : cmdOfs c = cmdOfs d) :
    c = d := by
  refine BitVec.eq_of_getLsbD_eq fun j hj => ?_
  rcases (by omega : j < 4 ∨ (4 ≤ j ∧ j < 7) ∨ j = 7) with hlow | ⟨hlo, hhi⟩ | rfl
  · simpa [cmdOp, hlow] using congrArg (·.getLsbD j) hop
  · simpa [cmdOfs, hlo, (by omega : j - 4 < 3)] using congrArg (·.getLsbD (j - 4)) hofs
  · exact hz

theorem encode_fields (i : Instr) :
    cmdZ (encode i) = false ∧ cmdOp (encode i) = i.opField ∧ cmdOfs (encode i) = i.ofsField := by
  cases i with
  | fext2 ofs => revert ofs; decide
  | fins2 ofs => revert ofs; decide
  | _ => decide

theorem formatN_eq_ok_iff {i j : Instr} {ofs : BitVec 3} : formatN i ofs = .ok j ↔ ofs = 0 ∧ i = j := by
  unfold formatN
  split
  · rename_i h
    simp [h]
  · rename_i h
    exact iff_of_false nofun fun hj => h hj.1

/-- The tests of a byte pass for an operation exactly when the byte's fields are the operation's. -/
theorem decode_eq_ok_iff_fields {c : Byte} {i : Instr} :
    decode c = .ok i ↔ cmdZ c = false ∧ cmdOp c = i.opField ∧ cmdOfs c = i.ofsField := by
  constructor
  · intro h
    unfold decode at h
    split at h
    · cases h
    · rename_i hz
      refine ⟨by simpa using hz, ?_⟩
      split at h
      case h_11 => cases h
      case h_1 hop => cases h; exact ⟨BitVec.eq_of_toNat_eq hop, rfl⟩
      case h_2 hop => cases h; exact ⟨BitVec.eq_of_toNat_eq hop, rfl⟩
      all_goals
        rename_i hop
        obtain ⟨hofs, rfl⟩ := formatN_eq_ok_iff.1 h
        exact ⟨BitVec.eq_of_toNat_eq hop, hofs⟩
  · rintro ⟨hz, hop, hofs⟩
    cases i <;> simp [decode, formatN, hz, hop, hofs, Instr.opField, Instr.ofsField]

/-- A byte decodes to an operation exactly when it is the operation's encoding. -/
theorem decode_eq_ok_iff {c : Byte} {i : Instr} : decode c = .ok i ↔ encode i = c := by
  obtain ⟨hz, hop, hofs⟩ := encode_fields i
  rw [decode_eq_ok_iff_fields]
  constructor
  · rintro ⟨hz', hop', hofs'⟩
    exact cmdByte_ext (hz.trans hz'.symm) (hop.trans hop'.symm) (hofs.trans hofs'.symm)
  · rintro rfl
    exact ⟨hz, hop, hofs⟩

@[simp] theorem decode_encode (i : Instr) : decode (encode i) = .ok i := decode_eq_ok_iff.2 rfl

end Sys2Proof

namespace Sys2Proof.Machine

/-- The bus carries a command byte whole (R85). -/
theorem setWidth_ofNat_byte (c : Byte) : (BitVec.ofNat 128 (c.toNat % 2 ^ 8)).setWidth 8 = c := by
  apply BitVec.eq_of_toNat_eq
  simpa using c.isLt

/-- Settles O1: the fields of the byte are the operation's, and the placed byte is the one the step decodes. -/
theorem decodeOfEncode : Obligations.DecodeOfEncode := by
  refine fun i => ⟨decode_encode i, fun s => ?_⟩
  rw [step_of_command (s := s.withFetchWord 8 (encode i).toNat) rfl, setWidth_ofNat_byte,
    runCommand_of_decode (i := i) (by simp)]
  rfl

/-- Settles O2: `decode_eq_ok_iff` from left to right. -/
theorem encodeOfDecode : Obligations.EncodeOfDecode := fun _ _ => decode_eq_ok_iff.1

end Sys2Proof.Machine

namespace Sys2Proof

/-! ### The tests of a command byte, in their order (R84) -/

theorem decode_of_z {c : Byte} (hz : cmdZ c = true) : decode c = .error .zSet := by
  simp [decode, hz]

theorem decode_of_reservedOp {c : Byte} (hz : cmdZ c = false) (hop : (cmdOp c).toNat = 0 ∨ 0xB ≤ (cmdOp c).toNat) :
    decode c = .error .reservedOp := by
  rw [decode, if_neg (by simp [hz])]
  split
  case h_11 => rfl
  all_goals omega

/-- Past the first two tests, OP names an operation of format F, with the byte's OFS, or a row of format N. -/
theorem decode_of_op {c : Byte} (hz : cmdZ c = false) (hlo : 1 ≤ (cmdOp c).toNat) (hhi : (cmdOp c).toNat ≤ 0xA) :
    ((cmdOp c).toNat ≤ 2 ∧ ∃ i, decode c = .ok i) ∨
    (3 ≤ (cmdOp c).toNat ∧ ∃ i, decode c = formatN i (cmdOfs c)) := by
  rw [decode, if_neg (by simp [hz])]
  split
  case h_1 hop => exact .inl ⟨by omega, _, rfl⟩
  case h_2 hop => exact .inl ⟨by omega, _, rfl⟩
  case h_11 =>
    simp only [imp_false] at *
    omega
  all_goals exact .inr ⟨by omega, _, rfl⟩

theorem decode_of_ofs {c : Byte} (hz : cmdZ c = false) (hlo : 3 ≤ (cmdOp c).toNat) (hhi : (cmdOp c).toNat ≤ 0xA)
    (hofs : cmdOfs c ≠ 0) : decode c = .error .ofsNotZero := by
  rcases decode_of_op hz (by omega) hhi with ⟨hop, -⟩ | ⟨-, i, hi⟩
  · omega
  · exact hi.trans (if_neg hofs)

theorem decode_ok_of_tests {c : Byte} (hz : cmdZ c = false) (hlo : 1 ≤ (cmdOp c).toNat)
    (hhi : (cmdOp c).toNat ≤ 0xA) (hofs : 3 ≤ (cmdOp c).toNat → cmdOfs c = 0) : ∃ i, decode c = .ok i := by
  rcases decode_of_op hz hlo hhi with ⟨-, hi⟩ | ⟨hop, i, hi⟩
  · exact hi
  · exact ⟨i, hi.trans (if_pos (hofs hop))⟩

/-- The ill-formed operations are FEXT2 7 and FINS2 7 (R81). -/
theorem Instr.wf_eq_false_iff {i : Instr} : i.wf = false ↔ i.opField.toNat ≤ 2 ∧ i.ofsField = 7 := by
  have illegal_iff (ofs : BitVec 3) : ¬ OfsLegal ofs ↔ ofs = 7 := by revert ofs; decide
  cases i with
  | fext2 ofs => simpa [Instr.wf, Instr.opField, Instr.ofsField] using illegal_iff ofs
  | fins2 ofs => simpa [Instr.wf, Instr.opField, Instr.ofsField] using illegal_iff ofs
  | _ => decide

theorem cmdOp_toNat (c : Byte) : (cmdOp c).toNat = c.toNat % 16 := by
  simp [cmdOp]

theorem cmdOfs_toNat (c : Byte) : (cmdOfs c).toNat = c.toNat / 16 % 8 := by
  simp [cmdOfs, Nat.shiftRight_eq_div_pow]

theorem cmdZ_eq_true_iff {c : Byte} : cmdZ c = true ↔ 128 ≤ c.toNat := by
  have msb : cmdZ c = decide (128 ≤ c.toNat) := BitVec.msb_eq_decide c
  rw [msb, decide_eq_true_iff]

end Sys2Proof

namespace Sys2Proof.Machine

/-- An ill-formed operation raises BAD_OPERAND itself (R84, R112, R113). -/
theorem exec_of_not_wf {i : Instr} (h : i.wf = false) (s : State) : exec i s = .next (s.setStatus 0x06) := by
  cases i with
  | fext2 ofs => exact execFext2_of_illegal (by simpa [Instr.wf] using h) s
  | fins2 ofs => exact execFins2_of_illegal (by simpa [Instr.wf] using h) s
  | _ => cases h

theorem runCommand_of_error {s : State} {e : DecodeError} (h : decode s.cmd = .error e) :
    runCommand s = .next (s.setStatus 0x05) := by
  simp [runCommand, h]

/-- What a command byte does, by its fields: the tests of R84 in their order. -/
theorem runCommand_in_order (s : State) :
    if cmdZ s.cmd = true then runCommand s = .next (s.setStatus 0x05)
    else if (cmdOp s.cmd).toNat = 0 ∨ 0xB ≤ (cmdOp s.cmd).toNat then runCommand s = .next (s.setStatus 0x05)
    else if 3 ≤ (cmdOp s.cmd).toNat ∧ (cmdOfs s.cmd).toNat ≠ 0 then runCommand s = .next (s.setStatus 0x05)
    else if (cmdOp s.cmd).toNat ≤ 2 ∧ (cmdOfs s.cmd).toNat = 7 then runCommand s = .next (s.setStatus 0x06)
    else ∃ i, decode s.cmd = .ok i ∧ i.wf = true ∧ runCommand s = exec i s := by
  split_ifs with hz hop hofs hbad
  · exact runCommand_of_error (decode_of_z hz)
  · exact runCommand_of_error (decode_of_reservedOp (by simpa using hz) hop)
  · exact runCommand_of_error (decode_of_ofs (by simpa using hz) hofs.1 (by omega) fun h => hofs.2 (by simp [h]))
  all_goals
    obtain ⟨i, hi⟩ := decode_ok_of_tests (c := s.cmd) (by simpa using hz) (by omega) (by omega)
      fun h => BitVec.eq_of_toNat_eq (by simpa [h] using hofs)
    obtain ⟨-, hopField, hofsField⟩ := decode_eq_ok_iff_fields.1 hi
    have run := runCommand_of_decode hi
  · have illFormed : i.wf = false :=
      Instr.wf_eq_false_iff.2 ⟨hopField ▸ hbad.1, hofsField ▸ BitVec.eq_of_toNat_eq hbad.2⟩
    exact run.trans (exec_of_not_wf illFormed s)
  · refine ⟨i, hi, ?_, run⟩
    by_contra hwf
    obtain ⟨hle, h7⟩ := Instr.wf_eq_false_iff.1 (by simpa using hwf)
    exact hbad ⟨hopField ▸ hle, by rw [hofsField, h7]; rfl⟩

/-- Settles O6: the tests read on the three fields, and the bytes of each class counted. -/
theorem commandDecodingInOrder : Obligations.CommandDecodingInOrder := by
  refine ⟨fun s v rest hs => ?_, by decide +kernel, by decide +kernel, by decide +kernel⟩
  simp only [← cmdOp_toNat, ← cmdOfs_toNat, ← cmdZ_eq_true_iff, step_of_command hs]
  exact runCommand_in_order ((s.setScript rest).setCmd (v.setWidth 8))

/-! ### The opcode map (R83) -/

/-- The mask of a row of format F keeps Z and OP and clears OFS. -/
theorem fields_and_maskF (c : Byte) :
    cmdZ (c &&& 0x8F#8) = cmdZ c ∧ cmdOp (c &&& 0x8F#8) = cmdOp c ∧ cmdOfs (c &&& 0x8F#8) = 0 := by
  rw [cmdOp, cmdOfs, BitVec.extractLsb'_and, BitVec.extractLsb'_and]
  exact ⟨by simp [cmdZ], BitVec.and_allOnes, BitVec.and_zero⟩

/-- The match of a row of format F is its operation code, in a byte. -/
theorem fields_setWidth_op (op : BitVec 4) :
    cmdZ (op.setWidth 8) = false ∧ cmdOp (op.setWidth 8) = op ∧ cmdOfs (op.setWidth 8) = 0 := by
  revert op
  decide

/-- A byte selects a row of format F exactly when it decodes to the row's operation with the byte's OFS. -/
theorem and_maskF_eq_iff {c : Byte} {i : Instr} (hi : i.ofsField = cmdOfs c) :
    c &&& 0x8F#8 = i.opField.setWidth 8 ↔ decode c = .ok i := by
  obtain ⟨hz, hop, hofs⟩ := fields_and_maskF c
  obtain ⟨hz', hop', hofs'⟩ := fields_setWidth_op i.opField
  rw [decode_eq_ok_iff_fields]
  constructor
  · intro h
    rw [h] at hz hop
    exact ⟨hz.symm.trans hz', hop.symm.trans hop', hi.symm⟩
  · rintro ⟨hz0, hop0, -⟩
    exact cmdByte_ext (hz.trans (hz0.trans hz'.symm)) (hop.trans (hop0.trans hop'.symm)) (hofs.trans hofs'.symm)

/-- The mask of a row of format N keeps the whole byte. -/
theorem and_maskN_eq_iff {c : Byte} (i : Instr) : c &&& 0xFF#8 = encode i ↔ decode c = .ok i := by
  have whole : c &&& 0xFF#8 = c := BitVec.and_allOnes
  rw [whole, decode_eq_ok_iff, eq_comm]

/-- Settles O3: the masked bits are the fields R84 tests. -/
theorem opcodeMapSelectsRow : Obligations.OpcodeMapSelectsRow :=
  fun c => ⟨and_maskF_eq_iff (i := .fext2 (cmdOfs c)) rfl, and_maskF_eq_iff (i := .fins2 (cmdOfs c)) rfl,
    and_maskN_eq_iff .gdec, and_maskN_eq_iff .genc, and_maskN_eq_iff .srd, and_maskN_eq_iff .swr,
    and_maskN_eq_iff .hser, and_maskN_eq_iff .hpar, and_maskN_eq_iff .embed, and_maskN_eq_iff .extract⟩

/-- Settles O4: seven of the bytes are encodings, the other four fail the tests of R84. -/
theorem writtenOutBytesDecode : Obligations.WrittenOutBytesDecode :=
  ⟨decode_encode (.fext2 2), decode_encode (.fins2 6), decode_encode .gdec, decode_encode .srd, decode_encode .hser,
    decode_encode .embed, decode_encode .extract, decode_of_reservedOp rfl (by decide),
    decode_of_reservedOp rfl (by decide), decode_of_z rfl, decode_of_ofs rfl (by decide) (by decide) (by decide)⟩

end Sys2Proof.Machine

namespace Sys2Proof.Machine

/-! ### Recognition of a valid stream (R95) -/

/-- A stream's header parses to its first two 8-byte fields (R93, R141). -/
theorem parseHeader_take (S : List Byte) :
    parseHeader (S.take Config.headerSize) = (ule64 (S.take 8), ule64 ((S.drop 8).take 8)) := by
  simp [parseHeader, List.take_take, List.drop_take, Config.headerSize, Config.magicBytes, Config.lenBytes]

theorem extract_of_short {B : List Byte} (h : (readStream B).length < 16) : extract B = .error .notEncoded := if_pos h

/-- The tests of the header that a stream starts with: the failure, if any (R95, R151). -/
def streamVerdict (S : List Byte) : Option Code :=
  headerVerdict S.length (ule64 (S.take 8)) (ule64 ((S.drop 8).take 8))

theorem streamVerdict_eq_none_iff {S : List Byte} :
    streamVerdict S = none ↔ ule64 (S.take 8) = Config.magic ∧ ¬ S.length < streamLen (ule64 ((S.drop 8).take 8)) :=
  headerVerdict_eq_none

theorem streamVerdict_of_magic_ne {S : List Byte} (hm : ule64 (S.take 8) ≠ Config.magic) :
    streamVerdict S = some .notEncoded := if_pos hm

theorem streamVerdict_of_less {S : List Byte} (hm : ule64 (S.take 8) = Config.magic)
    (hl : S.length < streamLen (ule64 ((S.drop 8).take 8))) : streamVerdict S = some .formatError :=
  (if_neg (not_not.2 hm)).trans (if_pos hl)

/-- With room for a header, a test that the header fails decides. -/
theorem extract_of_badHeader {B : List Byte} {e : Code} (hs : 16 ≤ (readStream B).length)
    (he : streamVerdict (readStream B) = some e) : extract B = .error e := by
  unfold streamVerdict at he
  refine (if_neg (Nat.not_lt.2 hs)).trans ?_
  simp only [parseHeader_take, he]

/-- Past a header that passes both tests lies the message. -/
theorem extract_of_validHeader {B : List Byte} (hs : 16 ≤ (readStream B).length)
    (hv : streamVerdict (readStream B) = none) :
    extract B = .ok (((readStream B).drop 16).take (ule64 (((readStream B).drop 8).take 8)).toNat) := by
  unfold streamVerdict at hv
  refine (if_neg (Nat.not_lt.2 hs)).trans ?_
  simp only [parseHeader_take, hv]

/-- `Extract` answers a message exactly when there is room for a header and the header passes both tests. -/
theorem extract_eq_ok_iff {B : List Byte} :
    (∃ M, extract B = .ok M) ↔ 16 ≤ (readStream B).length ∧ streamVerdict (readStream B) = none := by
  rcases Nat.lt_or_ge (readStream B).length 16 with hs | hs
  · simp [extract_of_short hs, Nat.not_le.2 hs]
  · cases hv : streamVerdict (readStream B) with
    | some e => simp [extract_of_badHeader hs hv]
    | none => exact iff_of_true ⟨_, extract_of_validHeader hs hv⟩ ⟨hs, rfl⟩

/-- Settles O34, one test of `Extract` a clause. -/
theorem recognitionOfAValidStream : Obligations.RecognitionOfAValidStream := by
  refine fun B => ⟨?_, extract_of_short, fun hs hm => ?_, fun hs hm hl => ?_⟩
  · rw [extract_eq_ok_iff, streamVerdict_eq_none_iff, Nat.not_lt]
    rfl
  · exact extract_of_badHeader hs (streamVerdict_of_magic_ne hm)
  · exact extract_of_badHeader hs (streamVerdict_of_less hm hl)

/-! ### The carrier (R55, R90) -/

/-- Bits 7 to 2 of a channel byte, which no lane writes (R90). -/
def highBits (c : Byte) : Byte := c >>> 2

theorem withLowField_eq (c v : Byte) : withLowField c v = (c &&& 0xFC#8) ||| (v &&& 3#8) := by
  have mask : fieldMask Config.fieldW = 3#8 := rfl
  simp [withLowField, insertField, mask]

/-- A lane writes its field alone (R90, R121). -/
theorem highBits_withLowField (c v : Byte) : highBits (withLowField c v) = highBits c := by
  rw [withLowField_eq]
  refine BitVec.eq_of_getLsbD_eq fun j hj => ?_
  interval_cases j <;> simp [highBits]

theorem encodeGroup_bytes_highBits (p : Byte) (g : Group) :
    (encodeGroup p g).bytes.map highBits = g.bytes.map highBits := by
  simp [encodeGroup, Group.bytes, highBits_withLowField]

/-- `WriteStream` keeps the high 6 bits of every byte. -/
theorem writeStream_highBits {B S B' : List Byte} (h : writeStream B S = some B') :
    B'.map highBits = B.map highBits := by
  induction S generalizing B B' with
  | nil =>
    rw [writeStream_nil] at h
    rw [Option.some.inj h]
  | cons p S ih =>
    rcases short_or_group B with hs | ⟨c0, c1, c2, c3, B₁, rfl⟩
    · rw [writeStream_eq_none (by simp only [List.length_cons]; omega)] at h
      cases h
    · rw [writeStream_cons, Option.map_eq_some_iff] at h
      obtain ⟨B₂, h, rfl⟩ := h
      rw [List.map_append, encodeGroup_bytes_highBits, ih h]
      rfl

/-- The operations other than SWR and EMBED leave CB as it was (R33, R36). -/
theorem exec_cb_of_ne {i : Instr} {s t : State} (h : exec i s = .next t) (hswr : i ≠ .swr) (hembed : i ≠ .embed) :
    t.cb = s.cb := by
  obtain ⟨hsrd, hextract, -, -⟩ := borrowedSpacesAreKept s t
  by_cases hi : i = .srd
  · exact hsrd (hi ▸ h)
  · by_cases hi' : i = .extract
    · exact hextract (hi' ▸ h)
    · exact exec_mem_of_registerOperation h hi hswr hembed hi' .cb

/-- What any operation can do to CB: leave it, or write a stream into its first whole groups. -/
theorem exec_cb_cases {i : Instr} {s t : State} (h : exec i s = .next t) :
    t.cb = s.cb ∨ ∃ k B S B', k ≤ capacity s ∧ memRead s .cb 0 (groupAddr k) = .next B ∧
      writeStream B S = some B' ∧ t.cb = s.cb.writeBytes 0 B' := by
  by_cases hswr : i = .swr
  · subst hswr
    rcases execSwr_next h with ⟨-, rfl⟩ | ⟨hfit, S, B, B', -, hB, hB', -, rfl⟩
    · exact .inl rfl
    · have fits : s.strLen.toNat ≤ capacity s := by
        simp only [groupAddr, capacity, Config.groupN] at hfit ⊢
        omega
      exact .inr ⟨_, B, S, B', fits, hB, hB', rfl⟩
  by_cases hembed : i = .embed
  · subst hembed
    rcases execEmbed_next h with ⟨-, rfl⟩ | ⟨hfit, B, M, B', hB, -, hB', -, -, rfl⟩
    · exact .inl rfl
    · exact .inr ⟨_, B, _, B', Nat.le_of_not_lt hfit, hB, hB', rfl⟩
  exact .inl (exec_cb_of_ne h hswr hembed)

/-- A stream written over the bytes that were read keeps the high 6 bits at every address, and gives no byte a value. -/
theorem read_writeBytes_highBits {s : State} {sp : Space} {n : Nat} {B S B' : List Byte}
    (hB : memRead s sp 0 n = .next B) (hw : writeStream B S = some B') (a : Nat) :
    (((s.mem sp).writeBytes 0 B').read a).map highBits = ((s.mem sp).read a).map highBits := by
  have hl : B'.length = n := (writeStream_length hw).trans (memRead_length hB)
  rw [Mem.read_writeBytes_zero]
  split
  · rename_i ha
    have hread : (s.mem sp).read a = B[a]? := by simpa using memRead_get hB (hl ▸ ha)
    rw [hread, ← List.getElem?_map, ← List.getElem?_map, writeStream_highBits hw]
  · rfl

/-- No operation changes the high 6 bits of a channel byte, or gives one a value. -/
theorem exec_keeps_highBits {i : Instr} {s t : State} (h : exec i s = .next t) (a : Nat) :
    (t.cb.read a).map highBits = (s.cb.read a).map highBits := by
  rcases exec_cb_cases h with hcb | ⟨k, B, S, B', -, hB, hw, hcb⟩ <;> rw [hcb]
  exact read_writeBytes_highBits (sp := .cb) hB hw a

theorem exec_cb_read_of_pastGroups {i : Instr} {s t : State} (h : exec i s = .next t) {a : Nat}
    (ha : groupAddr (capacity s) ≤ a) : t.cb.read a = s.cb.read a := by
  rcases exec_cb_cases h with hcb | ⟨k, B, S, B', hk, hB, hw, hcb⟩ <;> rw [hcb]
  have hl : B'.length = groupAddr k := (writeStream_length hw).trans (memRead_length hB)
  have below : groupAddr k ≤ groupAddr (capacity s) := Nat.mul_le_mul_left _ hk
  exact Mem.read_writeBytes_of_ge (by omega)

/-- Settles O48: every operation keeps the high bits of every address, and stays inside the whole groups. -/
theorem coreKeepsTheCarrier : Obligations.CoreKeepsTheCarrier := by
  refine fun i s t h => ⟨fun a c hc => ?_, fun a hnone => ?_, fun a => exec_cb_read_of_pastGroups h⟩
  · have high := exec_keeps_highBits h a
    rw [hc] at high
    exact Option.map_eq_some_iff.1 high
  · have high := exec_keeps_highBits h a
    rw [hnone] at high
    exact Option.map_eq_none_iff.1 high

end Sys2Proof.Machine

/-! ## 40_bitfield: the field accessors (R110, R111, R115), FEXT2 and FINS2 (R112, R113) -/

namespace Sys2Proof.Machine

/-! ### The mask and the accessors, as numbers and bit by bit -/

theorem fieldMask_toNat {w : Nat} (hw : w ≤ 8) : (fieldMask w).toNat = 2 ^ w - 1 := by
  interval_cases w <;> rfl

/-- A number below 2^w stays within the byte when it is shifted to an offset that the precondition admits (R12). -/
theorem toNat_shiftLeft_of_lt {x : Byte} {o w : Nat} (hx : x.toNat < 2 ^ w) (h : o + w ≤ 8) :
    (x <<< o).toNat = x.toNat <<< o := by
  have inByte : x.toNat <<< o < 2 ^ 8 :=
    (Nat.shiftLeft_lt hx).trans_le (Nat.pow_le_pow_right (by decide) (by omega))
  rw [BitVec.toNat_shiftLeft, Nat.mod_eq_of_lt inByte]

theorem fieldMask_getLsbD {w i : Nat} (hw : w ≤ 8) : (fieldMask w).getLsbD i = decide (i < w) := by
  rw [← BitVec.testBit_toNat, fieldMask_toNat hw, Nat.testBit_two_pow_sub_one]

theorem extractField_toNat (b : Byte) {o w : Nat} (h : o + w ≤ 8) :
    (extractField b o w h).toNat = (b.toNat >>> o) &&& (2 ^ w - 1) := by
  rw [extractField, BitVec.toNat_and, BitVec.toNat_ushiftRight, fieldMask_toNat (by omega)]

theorem extractField_getLsbD (b : Byte) {o w : Nat} (h : o + w ≤ 8) (i : Nat) :
    (extractField b o w h).getLsbD i = (b.getLsbD (o + i) && decide (i < w)) := by
  rw [extractField, BitVec.getLsbD_and, BitVec.getLsbD_ushiftRight, fieldMask_getLsbD (by omega)]

theorem insertField_toNat (b v : Byte) {o w : Nat} (h : o + w ≤ 8) :
    (insertField b o w v h).toNat =
      (b.toNat &&& (0xFF - ((2 ^ w - 1) <<< o))) ||| ((v.toNat &&& (2 ^ w - 1)) <<< o) := by
  have mask := fieldMask_toNat (w := w) (by omega)
  have mask_lt : (fieldMask w).toNat < 2 ^ w := by
    have := Nat.two_pow_pos w
    omega
  have value_lt : (v &&& fieldMask w).toNat < 2 ^ w := by
    rw [BitVec.toNat_and]
    exact Nat.and_lt_two_pow _ mask_lt
  rw [insertField, BitVec.toNat_or, BitVec.toNat_and, BitVec.toNat_not, toNat_shiftLeft_of_lt mask_lt h,
    toNat_shiftLeft_of_lt value_lt h, BitVec.toNat_and, mask]

/-- A bit of the field comes from the value, any other from the byte (R111). -/
theorem insertField_getLsbD (b v : Byte) {o w i : Nat} (h : o + w ≤ 8) (hi : i < 8) :
    (insertField b o w v h).getLsbD i = if o ≤ i ∧ i < o + w then v.getLsbD (i - o) else b.getLsbD i := by
  simp only [insertField, BitVec.getLsbD_or, BitVec.getLsbD_and, BitVec.getLsbD_not, BitVec.getLsbD_shiftLeft,
    fieldMask_getLsbD (by omega : w ≤ 8), hi]
  rcases (by omega : i < o ∨ (o ≤ i ∧ i - o < w) ∨ (o ≤ i ∧ ¬ i - o < w)) with below | ⟨hlo, inField⟩ | ⟨hlo, above⟩
  · rw [if_neg (by omega)]
    simp [below]
  · rw [if_pos (by omega)]
    simp [Nat.not_lt.2 hlo, inField]
  · rw [if_neg (by omega)]
    simp [Nat.not_lt.2 hlo, above]

theorem insertField_getLsbD_of_outside (b v : Byte) {o w i : Nat} (h : o + w ≤ 8) (hi : i < 8)
    (hout : i < o ∨ o + w ≤ i) : (insertField b o w v h).getLsbD i = b.getLsbD i := by
  rw [insertField_getLsbD b v h hi, if_neg (by omega)]

/-! ### The laws of R115 -/

/-- Read-back (R115, law 1). -/
theorem extractField_insertField (b v : Byte) {o w : Nat} (h : o + w ≤ 8) :
    extractField (insertField b o w v h) o w h = v &&& fieldMask w := by
  refine BitVec.eq_of_getLsbD_eq fun i _ => ?_
  rw [extractField_getLsbD, BitVec.getLsbD_and, fieldMask_getLsbD (by omega)]
  by_cases hw : i < w
  · rw [insertField_getLsbD b v h (by omega), if_pos (by omega), Nat.add_sub_cancel_left]
  · simp [hw]

/-- Re-insertion (R115, law 3). -/
theorem insertField_extractField (b : Byte) {o w : Nat} (h : o + w ≤ 8) :
    insertField b o w (extractField b o w h) h = b := by
  refine BitVec.eq_of_getLsbD_eq fun i hi => ?_
  rw [insertField_getLsbD _ _ h hi]
  by_cases inField : o ≤ i ∧ i < o + w
  · have hw : i - o < w := by omega
    rw [if_pos inField, extractField_getLsbD, Nat.add_sub_cancel' inField.1, decide_eq_true hw, Bool.and_true]
  · rw [if_neg inField]

/-- Overwrite (R115, law 4). -/
theorem insertField_insertField (b v1 v2 : Byte) {o w : Nat} (h : o + w ≤ 8) :
    insertField (insertField b o w v1 h) o w v2 h = insertField b o w v2 h := by
  refine BitVec.eq_of_getLsbD_eq fun i hi => ?_
  rw [insertField_getLsbD _ v2 h hi, insertField_getLsbD b v2 h hi]
  by_cases inField : o ≤ i ∧ i < o + w
  · rw [if_pos inField, if_pos inField]
  · rw [if_neg inField, if_neg inField, insertField_getLsbD b v1 h hi, if_neg inField]

/-- Insertions into disjoint fields commute (R115, law 5): a bit lies in at most one of the two. -/
theorem insertField_comm (b v1 v2 : Byte) {o1 w1 o2 w2 : Nat} (h1 : o1 + w1 ≤ 8) (h2 : o2 + w2 ≤ 8)
    (hd : o1 + w1 ≤ o2) :
    insertField (insertField b o1 w1 v1 h1) o2 w2 v2 h2 = insertField (insertField b o2 w2 v2 h2) o1 w1 v1 h1 := by
  refine BitVec.eq_of_getLsbD_eq fun i hi => ?_
  rw [insertField_getLsbD _ v2 h2 hi, insertField_getLsbD b v1 h1 hi, insertField_getLsbD _ v1 h1 hi,
    insertField_getLsbD b v2 h2 hi]
  by_cases first : o1 ≤ i ∧ i < o1 + w1
  · rw [if_neg (by omega), if_pos first, if_pos first]
  · rw [if_neg first, if_neg first]

/-- Settles O7: the masked number is a remainder by 2^w, as the bit slice is. -/
theorem extractFieldIsTheField : Obligations.ExtractFieldIsTheField := by
  intro b o w h
  have slice : (extractField b o w h).toNat = (b.toNat >>> o) % 2 ^ w := by
    rw [extractField_toNat, Nat.and_two_pow_sub_one_eq_mod]
  refine ⟨?_, ?_, fun hw => ?_, ?_⟩
  · rw [extractField_toNat, Nat.one_shiftLeft]
  · rw [slice]
    exact Nat.mod_lt _ (Nat.two_pow_pos w)
  · rw [slice, BitVec.extractLsb_toNat, (by omega : o + w - 1 - o + 1 = w)]
  · rintro rfl
    exact BitVec.and_zero

/-- Settles O8: the formula and the bits of `InsertField`. -/
theorem insertFieldPutsTheField : Obligations.InsertFieldPutsTheField := by
  refine fun b v o w h => ⟨?_, fun i => insertField_getLsbD b v h⟩
  rw [insertField_toNat, Nat.one_shiftLeft]

/-- Settles O9, one lemma a law. -/
theorem fieldAccessorLaws : Obligations.FieldAccessorLaws :=
  ⟨fun b v _ _ h => ⟨extractField_insertField b v h, fun _ => insertField_getLsbD_of_outside b v h,
      insertField_extractField b h⟩,
    fun b v1 v2 _ _ h => insertField_insertField b v1 v2 h,
    fun b v1 v2 _ _ _ _ h1 h2 => insertField_comm b v1 v2 h1 h2⟩

/-! ### FEXT2, FINS2 -/

/-- The one offset that a 2-bit field does not have in a byte (R81). -/
theorem ofsLegal_of_ne {ofs : BitVec 3} (h : ofs ≠ 7) : OfsLegal ofs := by
  revert ofs
  decide

/-- Settles O10: `decode_encode`, then the legal and the illegal offset. -/
theorem fext2ExtractsTheField : Obligations.Fext2ExtractsTheField := by
  refine fun s ofs => ⟨decode_encode (.fext2 ofs), fun h => execFext2_of_legal (ofsLegal_of_ne h) s, ?_⟩
  rintro rfl
  exact execFext2_of_illegal (by decide) s

/-- Settles O11: `decode_encode`, then the legal and the illegal offset. -/
theorem fins2InsertsTheField : Obligations.Fins2InsertsTheField := by
  refine fun s ofs => ⟨decode_encode (.fins2 ofs), fun h => execFins2_of_legal (ofsLegal_of_ne h) s, ?_⟩
  rintro rfl
  exact execFins2_of_illegal (by decide) s

end Sys2Proof.Machine

/-! ## 41_group_codec: the group codec (R120, R121, R124), GDEC and GENC (R122, R123) -/

namespace Sys2Proof.Machine

/-! ### One lane (R121) -/

/-- A 2-bit slice has nothing outside its mask. -/
theorem extractField_and_mask (b : Byte) {o : Nat} (h : o + 2 ≤ 8) :
    extractField b o 2 h &&& fieldMask 2 = extractField b o 2 h := by
  rw [extractField, BitVec.and_assoc, BitVec.and_self]

theorem lowField_withLowField_extractField (c p : Byte) {o : Nat} (h : o + 2 ≤ 8) :
    lowField (withLowField c (extractField p o 2 h)) = extractField p o 2 h :=
  (extractField_insertField c _ (by decide)).trans (extractField_and_mask p h)

theorem withLowField_lowField (c : Byte) : withLowField c (lowField c) = c := insertField_extractField c (by decide)

theorem withLowField_withLowField (c v w : Byte) : withLowField (withLowField c v) w = withLowField c w :=
  insertField_insertField c v w (by decide)

theorem lowField_and_three (c : Byte) : lowField (c &&& 3#8) = lowField c := by
  rw [lowField_eq_and, lowField_eq_and, BitVec.and_assoc, BitVec.and_self]

/-- The two formulas of R121 agree: the field inserted, and the slice put under the high 6 bits. -/
theorem withLowField_extractField_eq_carrying (c p : Byte) (i : Nat) (h : 2 * i + 2 ≤ 8) :
    withLowField c (extractField p (2 * i) 2 h) = carrying c p i := by
  rw [withLowField_eq, show 3#8 = fieldMask 2 from rfl, extractField_and_mask]
  rfl

/-! ### Four lanes -/

/-- A byte is made of its four 2-bit slices. -/
theorem or_slices_eq_self (p : Byte) :
    extractField p 0 2 ||| (extractField p 2 2 <<< 2) ||| (extractField p 4 2 <<< 4) ||| (extractField p 6 2 <<< 6) =
      p := by
  refine BitVec.eq_of_getLsbD_eq fun i hi => ?_
  simp only [BitVec.getLsbD_or, BitVec.getLsbD_shiftLeft, extractField_getLsbD]
  interval_cases i <;> simp

theorem extractField_or (a b : Byte) {o w : Nat} (h : o + w ≤ 8) :
    extractField (a ||| b) o w h = extractField a o w h ||| extractField b o w h := by
  refine BitVec.eq_of_getLsbD_eq fun i _ => ?_
  simp only [extractField_getLsbD, BitVec.getLsbD_or, Bool.and_or_distrib_right]

theorem lowField_getLsbD (c : Byte) (i : Nat) : (lowField c).getLsbD i = (c.getLsbD i && decide (i < 2)) := by
  rw [lowField, extractField_getLsbD, Nat.zero_add]

/-- What a lane carries, shifted to its place, is the slice there. -/
theorem extractField_lowField_shiftLeft_self (c : Byte) {o : Nat} (h : o + 2 ≤ 8) :
    extractField (lowField c <<< o) o 2 h = lowField c := by
  refine BitVec.eq_of_getLsbD_eq fun i _ => ?_
  rw [extractField_getLsbD, BitVec.getLsbD_shiftLeft, Nat.add_sub_cancel_left, lowField_getLsbD]
  by_cases inSlice : i < 2
  · have inByte : o + i < 8 := by omega
    simp [inSlice, inByte]
  · simp [inSlice]

/-- What a lane carries, shifted to its place, adds nothing to the slice of another lane (R120). -/
theorem extractField_lowField_shiftLeft_of_apart (c : Byte) {o k : Nat} (h : o + 2 ≤ 8)
    (apart : o + 2 ≤ k ∨ k + 2 ≤ o) : extractField (lowField c <<< k) o 2 h = 0#8 := by
  refine BitVec.eq_of_getLsbD_eq fun i _ => ?_
  rw [extractField_getLsbD, BitVec.getLsbD_shiftLeft, lowField_getLsbD, BitVec.getLsbD_zero]
  by_cases inSlice : i < 2
  · rcases apart with above | below
    · have belowLane : o + i < k := by omega
      simp [belowLane]
    · have aboveLane : ¬ o + i - k < 2 := by omega
      simp [aboveLane]
  · simp [inSlice]

/-- `DecodeGroup` with every lane, the lowest one too, shifted to its place. -/
theorem decodeGroup_eq_shifted (g : Group) :
    decodeGroup g =
      (lowField g.c0 <<< 0) ||| (lowField g.c1 <<< 2) ||| (lowField g.c2 <<< 4) ||| (lowField g.c3 <<< 6) := by
  rw [BitVec.shiftLeft_zero, decodeGroup]

/-- Slice i of the decoded byte is what lane i carries (R120). -/
theorem extractField_decodeGroup (g : Group) :
    extractField (decodeGroup g) 0 2 = lowField g.c0 ∧ extractField (decodeGroup g) 2 2 = lowField g.c1 ∧
    extractField (decodeGroup g) 4 2 = lowField g.c2 ∧ extractField (decodeGroup g) 6 2 = lowField g.c3 := by
  rw [decodeGroup_eq_shifted]
  simp [-BitVec.shiftLeft_zero, extractField_or, extractField_lowField_shiftLeft_self,
    extractField_lowField_shiftLeft_of_apart]

theorem encodeGroup_eq_carrying (p : Byte) (g : Group) :
    encodeGroup p g = ⟨carrying g.c0 p 0, carrying g.c1 p 1, carrying g.c2 p 2, carrying g.c3 p 3⟩ := by
  rw [encodeGroup, withLowField_extractField_eq_carrying _ _ 0, withLowField_extractField_eq_carrying _ _ 1,
    withLowField_extractField_eq_carrying _ _ 2, withLowField_extractField_eq_carrying _ _ 3]

/-! ### The laws of R124 -/

/-- Contract (R124, law 1). -/
theorem decodeGroup_encodeGroup (p : Byte) (g : Group) : decodeGroup (encodeGroup p g) = p := by
  simp only [decodeGroup, encodeGroup, lowField_withLowField_extractField]
  exact or_slices_eq_self p

/-- High bits (R124, law 2). -/
theorem encodeGroup_high (p : Byte) (g : Group) :
    (encodeGroup p g).c0 >>> 2 = g.c0 >>> 2 ∧ (encodeGroup p g).c1 >>> 2 = g.c1 >>> 2 ∧
    (encodeGroup p g).c2 >>> 2 = g.c2 >>> 2 ∧ (encodeGroup p g).c3 >>> 2 = g.c3 >>> 2 :=
  ⟨highBits_withLowField _ _, highBits_withLowField _ _, highBits_withLowField _ _, highBits_withLowField _ _⟩

/-- Re-encoding (R124, law 3). -/
theorem encodeGroup_decodeGroup (g : Group) : encodeGroup (decodeGroup g) g = g := by
  obtain ⟨h0, h1, h2, h3⟩ := extractField_decodeGroup g
  simp only [encodeGroup, h0, h1, h2, h3, withLowField_lowField]

/-- Overwrite (R124, law 4). -/
theorem encodeGroup_encodeGroup (p q : Byte) (g : Group) : encodeGroup q (encodeGroup p g) = encodeGroup q g := by
  simp only [encodeGroup, withLowField_withLowField]

/-- High bits are never inspected (R124, law 5). -/
theorem decodeGroup_low (g : Group) :
    decodeGroup g = decodeGroup ⟨g.c0 &&& 3#8, g.c1 &&& 3#8, g.c2 &&& 3#8, g.c3 &&& 3#8⟩ := by
  simp only [decodeGroup, lowField_and_three]

/-- Settles O14, one lemma a law. -/
theorem groupCodecLaws : Obligations.GroupCodecLaws :=
  fun p q g => ⟨decodeGroup_encodeGroup p g, encodeGroup_high p g, encodeGroup_decodeGroup g,
    encodeGroup_encodeGroup p q g, decodeGroup_low g⟩

/-! ### GDEC, GENC -/

/-- Settles O12: GDEC writes `DecodeGroup`, which is the formula of R91. -/
theorem gdecDecodesTheGroup : Obligations.GdecDecodesTheGroup := by
  refine ⟨decode_encode .gdec, fun s => (execGdec_eq s).trans ?_⟩
  rw [decodeGroup_eq_groupValue]
  rfl

/-- Settles O13: GENC writes `EncodeGroup`, which is the formula of R121 in each lane. -/
theorem gencEncodesTheByte : Obligations.GencEncodesTheByte := by
  refine ⟨decode_encode .genc, fun s => (execGenc_eq s).trans ?_⟩
  rw [encodeGroup_eq_carrying]
  rfl

end Sys2Proof.Machine

/-! ## 42_stream_codec: the stream codec (R130, R131, R134), SRD and SWR (R132, R133) -/

namespace Sys2Proof.Machine

/-! ### `WriteStream`, group by group (R131) -/

/-- `WriteStream` as a relation: each payload byte takes one group, the rest is kept (R131). -/
inductive WritesStream : List Byte → List Byte → List Byte → Prop
  | kept (B : List Byte) : WritesStream B [] B
  | group (c0 c1 c2 c3 p : Byte) {B S B' : List Byte} (rest : WritesStream B S B') :
    WritesStream (c0 :: c1 :: c2 :: c3 :: B) (p :: S)
      (carrying c0 p 0 :: carrying c1 p 1 :: carrying c2 p 2 :: carrying c3 p 3 :: B')

theorem writesStream_of_eq_some {B S B' : List Byte} (h : writeStream B S = some B') : WritesStream B S B' := by
  induction S generalizing B B' with
  | nil =>
    rw [writeStream_nil] at h
    cases h
    exact .kept B
  | cons p S ih =>
    rcases short_or_group B with hs | ⟨c0, c1, c2, c3, B₁, rfl⟩
    · rw [writeStream_eq_none (by simp only [List.length_cons]; omega)] at h
      cases h
    · rw [writeStream_cons, Option.map_eq_some_iff, encodeGroup_eq_carrying] at h
      obtain ⟨B₂, hw, rfl⟩ := h
      exact .group c0 c1 c2 c3 p (ih hw)

/-- Lane i of a written group carries slice i of its payload byte under the high bits it had. -/
theorem writeStream_getElem?_lane {B S B' : List Byte} (h : writeStream B S = some B') {k i : Nat} {p c : Byte}
    (hi : i < 4) (hp : S[k]? = some p) (hc : B[4 * k + i]? = some c) : B'[4 * k + i]? = some (carrying c p i) := by
  replace h := writesStream_of_eq_some h
  induction h generalizing k with
  | kept => simp at hp
  | group c0 c1 c2 c3 q _ ih =>
    cases k with
    | zero =>
      cases hp
      interval_cases i <;> cases hc <;> rfl
    | succ k =>
      rw [show 4 * (k + 1) + i = 4 * k + i + 1 + 1 + 1 + 1 by omega] at hc ⊢
      exact ih hp hc

/-- Untouched tail (R134, law 4). -/
theorem writeStream_getElem?_tail {B S B' : List Byte} (h : writeStream B S = some B') {a : Nat}
    (ha : 4 * S.length ≤ a) : B'[a]? = B[a]? := by
  replace h := writesStream_of_eq_some h
  induction h generalizing a with
  | kept => rfl
  | group c0 c1 c2 c3 p _ ih =>
    rw [List.length_cons] at ha
    obtain ⟨b, rfl⟩ : ∃ b, a = b + 1 + 1 + 1 + 1 := ⟨a - 4, by omega⟩
    exact ih (by omega)

/-- Settles O16: the domain of `WriteStream`, then the written lanes and the tail. -/
theorem writeStreamEncodesGroups : Obligations.WriteStreamEncodesGroups := by
  refine fun B S => ⟨writeStream_eq_none, fun hfit => ?_⟩
  obtain ⟨B', hw⟩ := writeStream_isSome_iff.2 hfit
  exact ⟨B', hw, writeStream_length hw, fun _ _ _ _ => writeStream_getElem?_lane hw,
    fun _ => writeStream_getElem?_tail hw⟩

/-- Settles O15: the length and the bytes of `ReadStream`. -/
theorem readStreamDecodesGroups : Obligations.ReadStreamDecodesGroups :=
  fun B => ⟨readStream_length B, fun _ _ _ _ _ => readStream_getElem?⟩

/-! ### The laws of R134 -/

/-- A group carries the byte written into it. -/
theorem groupValue_carrying (c0 c1 c2 c3 p : Byte) :
    groupValue (carrying c0 p 0) (carrying c1 p 1) (carrying c2 p 2) (carrying c3 p 3) = p := by
  have contract := decodeGroup_encodeGroup p ⟨c0, c1, c2, c3⟩
  rwa [encodeGroup_eq_carrying, decodeGroup_eq_groupValue] at contract

/-- The stream of a written buffer: the written bytes, then the bytes that the groups past them carried. -/
theorem readStream_writeStream {B S B' : List Byte} (h : writeStream B S = some B') :
    readStream B' = S ++ (readStream B).drop S.length := by
  replace h := writesStream_of_eq_some h
  induction h with
  | kept => rfl
  | group c0 c1 c2 c3 p _ ih =>
    rw [readStream_cons, readStream_cons, decodeGroup_eq_groupValue, groupValue_carrying, ih]
    rfl

/-- High bits (R134, law 3), at one address. -/
theorem writeStream_getElem?_highBits {B S B' : List Byte} (h : writeStream B S = some B') {a : Nat} {c : Byte}
    (hc : B[a]? = some c) : ∃ c', B'[a]? = some c' ∧ highBits c' = highBits c := by
  have high : (B'[a]?).map highBits = (B[a]?).map highBits := by
    rw [← List.getElem?_map, ← List.getElem?_map, writeStream_highBits h]
  rw [hc] at high
  exact Option.map_eq_some_iff.1 high

/-- Writing the stream that a buffer carries changes nothing (R134, law 5). -/
theorem writeStream_readStream (B : List Byte) : writeStream B (readStream B) = some B := by
  induction B using group_induction with
  | short B hs => rw [readStream_of_short hs, writeStream_nil]
  | step c0 c1 c2 c3 B ih =>
    rw [readStream_cons, writeStream_cons, ih, encodeGroup_decodeGroup]
    rfl

/-- Settles O17: laws 1 and 2 are the two parts of `readStream_writeStream`, the others a lemma each. -/
theorem streamCodecLaws : Obligations.StreamCodecLaws := by
  refine fun B S B' h => ⟨?readBack, fun k hk _ => ?later, fun _ _ => writeStream_getElem?_highBits h,
    fun _ => writeStream_getElem?_tail h, writeStream_readStream B, readStream_length B⟩
  case readBack => rw [readStream_writeStream h, List.take_left]
  case later =>
    rw [readStream_writeStream h, List.getElem?_append_right hk, List.getElem?_drop, Nat.add_sub_cancel' hk]

/-! ### SRD, SWR -/

theorem memRead_zero_get {s : State} {sp : Space} {n j : Nat} {bs : List Byte} (h : memRead s sp 0 n = .next bs)
    (hj : j < n) : bs[j]? = (s.mem sp).read j := by
  simpa using (memRead_get h hj).symm

/-- The stream of the groups read from CB is, byte by byte, what CB's groups carry. -/
theorem readStream_getElem?_of_memRead {s : State} {n k : Nat} {B : List Byte}
    (hB : memRead s .cb 0 (groupAddr n) = .next B) (hk : k < n) :
    (readStream B)[k]? = streamAt s.cb k ∧ (streamAt s.cb k).isSome = true := by
  have hl : B.length = groupAddr n := memRead_length hB
  have inside (i : Nat) (hi : i < 4) : 4 * k + i < B.length := by
    simp only [hl, groupAddr, Config.groupN]
    omega
  have byte {j : Nat} (hj : j < B.length) : B[j]? = some B[j] ∧ s.cb.read j = some B[j] :=
    ⟨List.getElem?_eq_getElem hj, (memRead_zero_get hB (hl ▸ hj)).symm.trans (List.getElem?_eq_getElem hj)⟩
  obtain ⟨h0, r0⟩ := byte (inside 0 (by decide))
  obtain ⟨h1, r1⟩ := byte (inside 1 (by decide))
  obtain ⟨h2, r2⟩ := byte (inside 2 (by decide))
  obtain ⟨h3, r3⟩ := byte (inside 3 (by decide))
  rw [readStream_getElem? h0 h1 h2 h3, streamAt_eq_some_iff.2 ⟨_, _, _, _, r0, r1, r2, r3, rfl⟩]
  exact ⟨rfl, rfl⟩

theorem capacity_lt (s : State) : capacity s < 2 ^ 64 := (Nat.div_le_self _ _).trans_lt s.bufLen.isLt

/-- Settles O18: the bytes below the capacity are the stream read, and the rest is SRD's frame. -/
theorem srdReadsTheWholeStream : Obligations.SrdReadsTheWholeStream := by
  refine ⟨decode_encode .srd, fun s hready => ?_⟩
  obtain ⟨hc, hbytes, hr⟩ := hready
  obtain ⟨B, hB⟩ := memRead_of_hasBytes hbytes (Nat.zero_add _).le
  obtain ⟨hl, hexec⟩ := execSrd_of_reads hc hr hB
  refine ⟨_, hexec, rfl, ?length, fun k hk => ?stream, fun a ha => ?rest, execSrd_frame hexec⟩
  case length => exact Nat.mod_eq_of_lt (capacity_lt s)
  case stream =>
    have stored : k < (readStream B).length := hk.trans_eq hl.symm
    obtain ⟨hget, hsome⟩ := readStream_getElem?_of_memRead hB hk
    refine ⟨?_, hsome⟩
    simp [Mem.read_writeBytes_zero, stored, ← hget]
  case rest => exact execSrd_read_of_outside (sp := .sb) hexec fun ⟨_, hlt⟩ => Nat.not_lt.2 ha hlt

/-- Settles O19: the lanes are those of `WriteStream` on the bytes read, and the rest is SWR's frame. -/
theorem swrWritesTheStream : Obligations.SwrWritesTheStream := by
  refine ⟨decode_encode .swr, fun s => ⟨execSwr_of_bad, fun hfit hready => ?_⟩⟩
  obtain ⟨hc, hsb, hcb⟩ := hready hfit
  obtain ⟨S, hS⟩ := memRead_of_hasBytes hsb (Nat.zero_add _).le
  obtain ⟨B, hB⟩ := memRead_of_hasBytes hcb (Nat.zero_add _).le
  obtain ⟨B', hw, hl, hexec⟩ := execSwr_of_reads (Nat.not_lt.2 hfit) hc hS hB
  refine ⟨_, hexec, rfl, fun k i p c hk hi hp hch => ?lane, fun a ha => ?rest, execSwr_frame hexec⟩
  case lane =>
    have below : 4 * k + i < 4 * s.strLen.toNat := by omega
    have written : 4 * k + i < B'.length := below.trans_eq hl.symm
    have lane := writeStream_getElem?_lane hw hi ((memRead_zero_get hS hk).trans hp)
      ((memRead_zero_get hB below).trans hch)
    rw [State.setStatus_cb, State.setMem_cb_cb, Mem.read_writeBytes_zero, if_pos written, lane]
  case rest => exact execSwr_read_of_outside (sp := .cb) hexec fun ⟨_, hlt⟩ => Nat.not_lt.2 ha hlt

end Sys2Proof.Machine

/-! ## 43_header_codec: HDR as bytes (R21, R140), HSER and HPAR (R142, R143) -/

namespace Sys2Proof.Machine

/-! ### HDR as a byte sequence -/

theorem hdrBytes_eq_bytesOfNat (v : HdrWord) : hdrBytes v = bytesOfNat 16 v.toNat := by
  rw [bytesOfNat_eq_map_range, hdrBytes]
  refine List.map_congr_left fun i _ => BitVec.eq_of_toNat_eq ?_
  simp

@[simp] theorem hdrOfBytes_hdrBytes (v : HdrWord) : hdrOfBytes (hdrBytes v) = v := by
  apply BitVec.eq_of_toNat_eq
  have whole : v.toNat % 256 ^ 16 = v.toNat := Nat.mod_eq_of_lt v.isLt
  rw [hdrOfBytes, hdrBytes_eq_bytesOfNat, natOfBytes_bytesOfNat, whole, BitVec.ofNat_toNat, BitVec.setWidth_eq]

/-- Byte i of `LE64` of the half of HDR from bit `o` up is the byte of HDR from bit `o + 8i` up. -/
theorem le64_extractLsb' (v : HdrWord) (o : Nat) :
    le64 (v.extractLsb' o 64) = (List.range 8).map fun i => v.extractLsb' (o + 8 * i) 8 := by
  refine List.map_congr_left fun i hi => BitVec.eq_of_getLsbD_eq fun j hj => ?_
  have inHalf : 8 * i + j < 64 := by
    rw [List.mem_range] at hi
    omega
  simp [hj, inHalf, Nat.add_assoc]

/-- HDR[0..8) is the low half of the register and HDR[8..16) the high half, least significant byte first. -/
theorem hdrBytes_eq_le64_append (v : HdrWord) :
    hdrBytes v = le64 (v.extractLsb' 0 64) ++ le64 (v.extractLsb' 64 64) := by
  have halves : List.range 16 = List.range 8 ++ (List.range 8).map (8 + ·) := List.range_add (n := 8) (m := 8)
  simp [hdrBytes, halves, le64_extractLsb', Nat.mul_add, Function.comp_def]

theorem ule64_hdrBytes_take (v : HdrWord) : ule64 ((hdrBytes v).take 8) = v.extractLsb' 0 64 := by
  rw [hdrBytes_eq_le64_append, List.take_left' (le64_length _), ule64_le64]

theorem ule64_hdrBytes_drop (v : HdrWord) : ule64 ((hdrBytes v).drop 8) = v.extractLsb' 64 64 := by
  rw [hdrBytes_eq_le64_append, List.drop_left' (le64_length _), ule64_le64]

/-- `ParseHeader` of HDR is its two halves (R141). -/
theorem parseHeader_hdrBytes (v : HdrWord) : parseHeader (hdrBytes v) = (v.extractLsb' 0 64, v.extractLsb' 64 64) := by
  have whole : ((hdrBytes v).drop 8).take 8 = (hdrBytes v).drop 8 := List.take_of_length_le (by simp)
  rw [← ule64_hdrBytes_take, ← ule64_hdrBytes_drop, ← whole]
  rfl

/-- The register with the length over the magic holds the serialized header (R140). -/
theorem hdrBytes_length_over_magic (l : Word) : hdrBytes (l ++ Config.magic) = serializeHeader l := by
  rw [hdrBytes_eq_le64_append, BitVec.extractLsb'_append_eq_right, BitVec.extractLsb'_append_eq_left, serializeHeader]

theorem hdrOfBytes_serializeHeader (l : Word) : hdrOfBytes (serializeHeader l) = l ++ Config.magic := by
  rw [← hdrBytes_length_over_magic, hdrOfBytes_hdrBytes]

/-! ### HSER, HPAR -/

/-- HSER's next state: the length over the magic in HDR (R142). -/
theorem execHser_eq_append (s : State) :
    execHser s = .next { s with hdr := s.msgLen ++ Config.magic, status := 0x01 } := by
  rw [execHser_eq, hdrOfBytes_serializeHeader]
  rfl

/-- HPAR's next state: HDR's halves in HMAGIC and MSG_LEN (R143). -/
theorem execHpar_eq_halves (s : State) :
    execHpar s = .next { s with hmagic := s.hdr.extractLsb' 0 64, msgLen := s.hdr.extractLsb' 64 64, status := 0x01 } := by
  rw [execHpar_eq, parseHeader_hdrBytes]
  rfl

theorem le64_magic : le64 Config.magic = [0xA6#8, 0xDC#8, 0x6E#8, 0x67#8, 0x0C#8, 0x7B#8, 0xD3#8, 0xF3#8] := by decide

/-- Settles O22: HDR is the length over the magic, whose bytes are the serialized header. -/
theorem hserSerializesTheHeader : Obligations.HserSerializesTheHeader := by
  refine ⟨decode_encode .hser, fun s => ⟨_, execHser_eq_append s, rfl, ?bytes⟩⟩
  case bytes => rw [hdrBytes_length_over_magic, serializeHeader, le64_magic]

/-- Settles O23: the halves of the register are `ULE64` of the halves of its bytes. -/
theorem hparParsesTheHeader : Obligations.HparParsesTheHeader :=
  ⟨decode_encode .hpar, fun s =>
    ⟨execHpar_eq_halves s, (ule64_hdrBytes_take s.hdr).symm, (ule64_hdrBytes_drop s.hdr).symm⟩⟩

/-- Settles O24: HPAR parses the header that HSER left in HDR, and STATUS is OK already. -/
theorem hserThenHparRestoresLength : Obligations.HserThenHparRestoresLength := by
  refine ⟨parseHeader_serializeHeader, fun s => ⟨_, execHser_eq_append s, (execHpar_eq _).trans ?_⟩⟩
  rw [hdrBytes_length_over_magic, parseHeader_serializeHeader]
  rfl

end Sys2Proof.Machine

/-! ## 44_embed_extract: the encoder and the decoder (R150, R151, R154 to R157), EMBED and EXTRACT (R152, R153, R158,
R159) -/

namespace Sys2Proof.Machine

/-! ### The stream codec on a buffer in two parts (R130, R131) -/

/-- Whole groups followed by a tail: the stream of the groups, then that of the tail. -/
theorem readStream_append {B : List Byte} (h : 4 ∣ B.length) (T : List Byte) :
    readStream (B ++ T) = readStream B ++ readStream T := by
  induction B using group_induction with
  | short B hs =>
    rw [List.length_eq_zero_iff.1 (Nat.eq_zero_of_dvd_of_lt h hs)]
    rfl
  | step c0 c1 c2 c3 B ih =>
    simp only [List.cons_append, readStream_cons, ih (by simpa [Nat.dvd_add_left] using h)]

/-- A stream that fits a buffer's start leaves what follows it alone. -/
theorem writeStream_append {B S B' : List Byte} (h : writeStream B S = some B') (T : List Byte) :
    writeStream (B ++ T) S = some (B' ++ T) := by
  replace h := writesStream_of_eq_some h
  induction h with
  | kept => exact writeStream_nil _
  | group c0 c1 c2 c3 p _ ih =>
    simp only [List.cons_append, writeStream_cons, ih, encodeGroup_eq_carrying]
    rfl

theorem readStream_replicate (c : Byte) : ∀ n,
    readStream (List.replicate n c) = List.replicate (n / 4) (decodeGroup ⟨c, c, c, c⟩)
  | 0 => rfl
  | 1 => rfl
  | 2 => rfl
  | 3 => rfl
  | n + 4 => by
    rw [Nat.add_div_right n (by decide)]
    exact congrArg (decodeGroup ⟨c, c, c, c⟩ :: ·) (readStream_replicate c n)

theorem readStream_map_low (B : List Byte) : readStream (B.map (· &&& 3#8)) = readStream B := by
  induction B using group_induction with
  | short B hs => rw [readStream_of_short hs, readStream_of_short (by rwa [List.length_map])]
  | step c0 c1 c2 c3 B ih => simp only [List.map_cons, readStream_cons, ih, ← decodeGroup_low ⟨c0, c1, c2, c3⟩]

/-! ### `Embed` (R150) -/

/-- A buffer with room for the message takes header and message as one stream. -/
theorem embed_eq_some_iff {B M B' : List Byte} :
    embed B M = some B' ↔
      16 + M.length ≤ B.length / 4 ∧ writeStream B (serializeHeader (BitVec.ofNat 64 M.length) ++ M) = some B' := by
  by_cases h : B.length / 4 < 16 + M.length
  · simp [embed_of_short h, Nat.not_le.2 h]
  · simp [embed_of_fits h, Nat.not_lt.1 h]

theorem embed_isSome_of_fits {B M : List Byte} (h : 16 + M.length ≤ B.length / 4) : ∃ B', embed B M = some B' := by
  rw [embed_of_fits (Nat.not_lt.2 h)]
  refine writeStream_isSome_iff.2 ?_
  rw [List.length_append, serializeHeader_length]
  omega

theorem embed_eq_none_iff {B M : List Byte} : embed B M = none ↔ B.length / 4 < 16 + M.length := by
  refine ⟨fun hnone => Nat.lt_of_not_le fun hfit => ?_, embed_of_short⟩
  obtain ⟨B', hsome⟩ := embed_isSome_of_fits hfit
  cases hnone.symm.trans hsome

/-- Settles O31: at each side of the boundary one case of `Embed`. -/
theorem embedCapacityBoundary : Obligations.EmbedCapacityBoundary :=
  fun _ _ => ⟨embed_eq_none_iff, fun h => embed_of_short (by omega), fun h => embed_isSome_of_fits h.ge⟩

/-- Settles O32: `Embed` is one `WriteStream`, which keeps the high bits and what lies past the stream. -/
theorem embedIsNonDestructive : Obligations.EmbedIsNonDestructive := by
  intro B M B' h
  obtain ⟨-, hw⟩ := embed_eq_some_iff.1 h
  refine ⟨embed_length h, fun _ _ => writeStream_getElem?_highBits hw, fun a ha => writeStream_getElem?_tail hw ?_⟩
  rwa [List.length_append, serializeHeader_length]

/-! ### `Extract` (R151) -/

/-- `Extract` looks at the stream alone. -/
theorem extract_congr {B C : List Byte} (h : readStream B = readStream C) : extract B = extract C := by
  rw [extract, extract, h]

/-- The three ways `Extract` ends: no room for a header, a header that fails a test, a message. -/
theorem extract_cases (B : List Byte) :
    ((readStream B).length < 16 ∧ extract B = .error .notEncoded) ∨
    (16 ≤ (readStream B).length ∧ ∃ e, streamVerdict (readStream B) = some e ∧ extract B = .error e) ∨
    (16 ≤ (readStream B).length ∧ streamVerdict (readStream B) = none ∧
      extract B = .ok (((readStream B).drop 16).take (ule64 (((readStream B).drop 8).take 8)).toNat)) := by
  rcases Nat.lt_or_ge (readStream B).length 16 with hs | hs
  · exact .inl ⟨hs, extract_of_short hs⟩
  · cases hv : streamVerdict (readStream B) with
    | some e => exact .inr (.inl ⟨hs, e, rfl, extract_of_badHeader hs hv⟩)
    | none => exact .inr (.inr ⟨hs, rfl, extract_of_validHeader hs hv⟩)

theorem streamVerdict_eq_notEncoded_iff {S : List Byte} :
    streamVerdict S = some .notEncoded ↔ ule64 (S.take 8) ≠ Config.magic := by
  refine ⟨fun h hm => ?_, streamVerdict_of_magic_ne⟩
  rcases headerVerdict_eq_some h with ⟨hne, -⟩ | ⟨-, -, hcode⟩
  · exact hne hm
  · cases hcode

theorem extract_eq_notEncoded_iff {B : List Byte} :
    extract B = .error .notEncoded ↔
      (readStream B).length < 16 ∨ ule64 ((readStream B).take 8) ≠ Config.magic := by
  rw [← streamVerdict_eq_notEncoded_iff]
  rcases extract_cases B with ⟨hs, hx⟩ | ⟨hs, e, hv, hx⟩ | ⟨hs, hv, hx⟩ <;> rw [hx]
  · simp [hs]
  · simp [hv, Nat.not_lt.2 hs]
  · simp [hv, Nat.not_lt.2 hs]

/-- A stream of one byte repeated is no header when eight of them are not the magic. -/
theorem extract_replicate {c : Byte} (hc : ule64 (List.replicate 8 (decodeGroup ⟨c, c, c, c⟩)) ≠ Config.magic)
    (n : Nat) :
    extract (List.replicate n c) = .error .notEncoded := by
  rw [extract_eq_notEncoded_iff, readStream_replicate, List.length_replicate, List.take_replicate]
  rcases Nat.lt_or_ge (n / 4) 16 with hs | hs
  · exact .inl hs
  · rw [Nat.min_eq_left (by omega)]
    exact .inr hc

/-- Settles O33: the failure by its two tests, and the two buffers by the byte their groups carry. -/
theorem notEncodedExactlyWhen : Obligations.NotEncodedExactlyWhen := by
  refine ⟨fun B => ?_, fun n => ⟨extract_replicate (by decide) n, extract_replicate (by decide) n⟩⟩
  rw [extract_eq_notEncoded_iff, readStream_length]

/-- Settles O36: the stream is that of the low bits. -/
theorem highBitsDoNotInfluenceExtract : Obligations.HighBitsDoNotInfluenceExtract := by
  intro B B' h
  refine extract_congr ?_
  rw [← readStream_map_low B, h, readStream_map_low]

/-! ### A message in a stream (R93, R154) -/

/-- A stream that starts with a message under its header gives the message. -/
theorem extract_of_stream {B M T : List Byte} (hM : M.length < 2 ^ 64)
    (h : readStream B = serializeHeader (BitVec.ofNat 64 M.length) ++ (M ++ T)) : extract B = .ok M := by
  have header : (readStream B).take 16 = serializeHeader (BitVec.ofNat 64 M.length) := by
    rw [h, List.take_left' (serializeHeader_length _)]
  have rest : (readStream B).drop 16 = M ++ T := by rw [h, List.drop_left' (serializeHeader_length _)]
  have hp := parseHeader_take (readStream B)
  rw [header, parseHeader_serializeHeader, Prod.mk.injEq] at hp
  obtain ⟨hm, hl⟩ := hp
  have len : (BitVec.ofNat 64 M.length).toNat = M.length := Nat.mod_eq_of_lt hM
  have room : (readStream B).length = 16 + (M.length + T.length) := by simp [h]
  have valid : streamVerdict (readStream B) = none := by
    refine streamVerdict_eq_none_iff.2 ⟨hm.symm, ?_⟩
    rw [← hl, room, streamLen, len, Config.headerSize]
    omega
  rw [extract_of_validHeader (by omega) valid, ← hl, len, rest, List.take_left]

/-- A length that passes the second test of the header has its message in the stream. -/
theorem message_length {S : List Byte} {l : Word} (hl : ¬ S.length < streamLen l) :
    ((S.drop 16).take l.toNat).length = l.toNat := by
  simp only [streamLen, Config.headerSize] at hl
  rw [List.length_take, List.length_drop]
  omega

/-- What `Extract` answers lies in the stream, under the header that spells its length. -/
theorem stream_of_extract {B M : List Byte} (h : extract B = .ok M) :
    M.length < 2 ^ 64 ∧ ∃ T, readStream B = serializeHeader (BitVec.ofNat 64 M.length) ++ (M ++ T) := by
  obtain ⟨hs, hv⟩ := extract_eq_ok_iff.1 ⟨M, h⟩
  rw [extract_of_validHeader hs hv] at h
  obtain ⟨hm, hl⟩ := streamVerdict_eq_none_iff.1 hv
  generalize hS : readStream B = S at *
  generalize hlen : ule64 ((S.drop 8).take 8) = l at *
  have len : M.length = l.toNat := Except.ok.inj h ▸ message_length hl
  refine ⟨len ▸ l.isLt, (S.drop 16).drop l.toNat, ?_⟩
  have magicBytes : S.take 8 = le64 Config.magic := by rw [← hm, le64_ule64 (by simp; omega)]
  have lenBytes : (S.drop 8).take 8 = le64 l := by rw [← hlen, le64_ule64 (by simp; omega)]
  rw [len, BitVec.ofNat_toNat, BitVec.setWidth_eq, serializeHeader, ← magicBytes, ← lenBytes, ← Except.ok.inj h,
    List.take_append_drop, List.append_assoc, show S.drop 16 = (S.drop 8).drop 8 by rw [List.drop_drop],
    List.take_append_drop, List.take_append_drop]

/-- The round trip of R154. -/
theorem extract_of_embed {B M B' : List Byte} (hM : M.length < 2 ^ 64) (h : embed B M = some B') :
    extract B' = .ok M := by
  obtain ⟨-, hw⟩ := embed_eq_some_iff.1 h
  exact extract_of_stream hM ((readStream_writeStream hw).trans (List.append_assoc _ _ _))

/-- Settles O29: the buffer is there, and its stream starts with the message under its header. -/
theorem extractOfEmbedIsTheMessage : Obligations.ExtractOfEmbedIsTheMessage := by
  intro B M hM hfit
  obtain ⟨B', h⟩ := embed_isSome_of_fits hfit
  exact ⟨B', h, extract_of_embed hM h⟩

/-! ### Reads in parts, and reads over a write -/

/-- A read answers a sequence when its two parts answer the sequence's two parts. -/
theorem memRead_add_eq_next_iff {s : State} {sp : Space} {a n k : Nat} {bs : List Byte} :
    memRead s sp a (n + k) = .next bs ↔
      ∃ x y, memRead s sp a n = .next x ∧ memRead s sp (a + n) k = .next y ∧ bs = x ++ y := by
  simp only [memRead_eq_next_iff, inMemory_add, Bool.and_eq_true, Mem.readBytes_add]
  constructor
  · rintro ⟨⟨hn, hk⟩, h⟩
    cases hx : (s.mem sp).readBytes a n with
    | none => simp [hx] at h
    | some x =>
      cases hy : (s.mem sp).readBytes (a + n) k with
      | none => simp [hx, hy] at h
      | some y => exact ⟨x, y, ⟨hn, rfl⟩, ⟨hk, rfl⟩, by simpa [hx, hy] using h.symm⟩
  · rintro ⟨x, y, ⟨hn, hx⟩, ⟨hk, hy⟩, rfl⟩
    exact ⟨⟨hn, hk⟩, by rw [hx, hy]⟩

/-- From groups that have been read, any of them read again: they carry that part of the stream. -/
theorem memRead_groups_slice {s : State} {sp : Space} {n j k : Nat} {B : List Byte}
    (hB : memRead s sp 0 (groupAddr n) = .next B) (h : j + k ≤ n) :
    ∃ P, memRead s sp (groupAddr j) (groupAddr k) = .next P ∧ readStream P = ((readStream B).drop j).take k := by
  obtain ⟨r, rfl⟩ := Nat.exists_eq_add_of_le h
  have split : groupAddr (j + k + r) = groupAddr j + (groupAddr k + groupAddr r) := by
    simp only [groupAddr, Nat.mul_add, Nat.add_assoc]
  rw [split] at hB
  obtain ⟨X, Y, hX, hY, rfl⟩ := memRead_add_eq_next_iff.1 hB
  obtain ⟨P, R, hP, -, rfl⟩ := memRead_add_eq_next_iff.1 hY
  rw [Nat.zero_add] at hP
  have whole {i a : Nat} {Z : List Byte} (hZ : memRead s sp a (groupAddr i) = .next Z) : 4 ∣ Z.length :=
    (memRead_length hZ).symm ▸ Nat.dvd_mul_right 4 i
  refine ⟨P, hP, ?_⟩
  rw [readStream_append (whole hX), readStream_append (whole hP), List.drop_left' (readStream_length_of_memRead hX),
    List.take_left' (readStream_length_of_memRead hP)]

/-- After a write over the first bytes of what was read, the read answers the written bytes, then the rest as before. -/
theorem memRead_overwritten {s : State} {sp : Space} {n : Nat} {x y x' : List Byte}
    (h : memRead s sp 0 n = .next (x ++ y)) (hl : x'.length = x.length) :
    memRead (s.setMem sp ((s.mem sp).writeBytes 0 x')) sp 0 n = .next (x' ++ y) := by
  obtain ⟨hlen, bytes⟩ := memRead_eq_next_iff_forall.1 h
  rw [List.length_append, ← hl, ← List.length_append] at hlen
  refine memRead_eq_next_iff_forall.2 ⟨hlen, fun j b hj => ?_⟩
  rw [Nat.zero_add, State.setMem_capOf, State.setMem_mem_self, Mem.read_writeBytes_zero]
  constructor
  · obtain ⟨hlt, -⟩ := List.getElem?_eq_some_iff.1 hj
    have := hasRoom_of_memRead h
    simp only [HasRoom] at this
    omega
  · by_cases hjx : j < x'.length
    · rw [if_pos hjx, ← hj, List.getElem?_append_left hjx]
    · rw [if_neg hjx]
      rw [List.getElem?_append_right (by omega), hl, ← List.getElem?_append_right (by omega)] at hj
      simpa using (bytes j b hj).2

/-! ### EMBED (R152) -/

theorem le64_getElem? (v : Word) {k : Nat} (hk : k < 8) : (le64 v)[k]? = some ((v >>> (8 * k)).setWidth 8) := by
  simp [le64, hk]

/-- The stream EMBED writes is, byte by byte, the header and then the message in MB. -/
theorem payload_getElem? {s : State} {M : List Byte} (hM : memRead s .mb 0 s.msgLen.toNat = .next M) {k : Nat}
    (hk : k < 16 + s.msgLen.toNat) : (serializeHeader s.msgLen ++ M)[k]? = payloadAt s k := by
  unfold payloadAt
  split
  · rename_i h8
    rw [List.getElem?_append_left (by simp; omega), serializeHeader, List.getElem?_append_left (by simpa using h8),
      le64_getElem? _ h8]
  · split
    · rw [List.getElem?_append_left (by simp; omega), serializeHeader, List.getElem?_append_right (by simp; omega),
        le64_length, le64_getElem? _ (by omega)]
    · rw [List.getElem?_append_right (by simp; omega), serializeHeader_length, memRead_zero_get hM (by omega)]
      rfl

/-- Settles O25: the lanes are those of `WriteStream` on the bytes read, and the rest is EMBED's frame. -/
theorem embedPacksTheMessage : Obligations.EmbedPacksTheMessage := by
  refine ⟨decode_encode .embed, fun s => ⟨execEmbed_of_bad, fun hfit hready => ?_⟩⟩
  obtain ⟨hc, hmb, hcb⟩ := hready hfit
  obtain ⟨M, hM⟩ := memRead_of_hasBytes hmb (Nat.zero_add _).le
  obtain ⟨B, hB⟩ := memRead_of_hasBytes hcb (Nat.zero_add _).le
  obtain ⟨B', hw, -, hl, hexec⟩ := execEmbed_of_reads (Nat.not_lt.2 hfit) hc hB hM
  refine ⟨_, hexec, rfl, fun k i p c hk hi hp hch => ?lane, fun a ha => ?rest, execEmbed_frame hexec⟩
  case lane =>
    have below : 4 * k + i < 4 * (16 + s.msgLen.toNat) := by omega
    have written : 4 * k + i < B'.length := below.trans_eq hl.symm
    have lane := writeStream_getElem?_lane hw hi ((payload_getElem? hM hk).trans hp)
      ((memRead_zero_get hB below).trans hch)
    rw [State.setStatus_cb, State.setMem_cb_cb, Mem.read_writeBytes_zero, if_pos written, lane]
  case rest => exact execEmbed_read_of_outside (sp := .cb) hexec fun ⟨_, hlt⟩ => Nat.not_lt.2 ha hlt

/-- Settles O27: EMBED writes the pure function's groups over the first bytes of the buffer, which leaves the rest. -/
theorem embedRefinesPureEmbed : Obligations.EmbedRefinesPureEmbed := by
  intro s B M hB hM
  have hlB := memRead_length hB
  have hlM := memRead_length hM
  by_cases hbad : capacity s < streamLen s.msgLen
  · rw [embed_of_short (by rw [hlB, hlM]; exact hbad)]
    exact execEmbed_of_bad hbad
  have hfit : streamLen s.msgLen ≤ capacity s := Nat.not_lt.1 hbad
  obtain ⟨r, hr⟩ := Nat.exists_eq_add_of_le (groupAddr_le_bufLen hfit)
  obtain ⟨X, Y, hX, -, rfl⟩ := memRead_add_eq_next_iff.1 (hr ▸ hB)
  obtain ⟨X', hw, -, hl, hexec⟩ := execEmbed_of_reads hbad (hasRoom_of_memRead hB) hX hM
  have pure : embed (X ++ Y) M = some (X' ++ Y) := by
    rw [embed_eq_some_iff, hlB, hlM, BitVec.ofNat_toNat, BitVec.setWidth_eq]
    exact ⟨hfit, writeStream_append hw Y⟩
  rw [pure]
  refine ⟨_, hexec, ?_, rfl⟩
  exact (memRead_congr rfl rfl 0 _).trans (memRead_overwritten hB (hl.trans (memRead_length hX).symm))

/-! ### EXTRACT (R153) -/

/-- The state in which EXTRACT ends when the message is `M`. -/
def State.extracted (s : State) (M : List Byte) : State :=
  ((s.setMem .mb (s.mb.writeBytes 0 M)).setMsgLen (BitVec.ofNat 64 M.length)).setStatus 0x01

theorem State.extracted_msgLen (s : State) {M : List Byte} {l : Word} (h : M.length = l.toNat) :
    (s.extracted M).msgLen = l := by
  change BitVec.ofNat 64 M.length = l
  rw [h, BitVec.ofNat_toNat, BitVec.setWidth_eq]

theorem State.extracted_mb_read_of_lt (s : State) {M : List Byte} {j : Nat} (hj : j < M.length) :
    (s.extracted M).mb.read j = M[j]? := by
  simp [State.extracted, Mem.read_writeBytes_zero, hj]

theorem State.extracted_mb_read_of_ge (s : State) {M : List Byte} {a : Nat} (ha : M.length ≤ a) :
    (s.extracted M).mb.read a = s.mb.read a := by
  simp [State.extracted, Mem.read_writeBytes_zero, Nat.not_lt.2 ha]

theorem length_of_extract {B M : List Byte} (h : extract B = .ok M) :
    M.length < 2 ^ 64 ∧ 16 + M.length ≤ (readStream B).length := by
  obtain ⟨hlt, T, hS⟩ := stream_of_extract h
  rw [hS, List.length_append, List.length_append, serializeHeader_length]
  exact ⟨hlt, by omega⟩

/-- When the pure decoder finds a message in the first groups of CB, so does EXTRACT, whatever the groups past them hold
(R59, R153). -/
theorem execExtract_of_extract_ok {s : State} {n : Nat} {B M : List Byte} (hc : HasRoom s .cb s.bufLen.toNat)
    (hr : HasRoom s .mb (capacity s - 16)) (hn : n ≤ capacity s) (hB : memRead s .cb 0 (groupAddr n) = .next B)
    (hM : extract B = .ok M) : execExtract s = .next (s.extracted M) := by
  obtain ⟨hlt, hlen⟩ := length_of_extract hM
  obtain ⟨-, T, hS⟩ := stream_of_extract hM
  rw [readStream_length_of_memRead hB] at hlen
  obtain ⟨H, hH, streamH⟩ := memRead_groups_slice hB (j := 0) (k := 16) (by omega)
  obtain ⟨P, hP, streamP⟩ := memRead_groups_slice hB (j := 16) (k := M.length) hlen
  rw [hS, List.drop_zero, List.take_left' (serializeHeader_length _)] at streamH
  rw [hS, List.drop_left' (serializeHeader_length _), List.take_left] at streamP
  have len : (BitVec.ofNat 64 M.length).toNat = M.length := Nat.mod_eq_of_lt hlt
  have fits : ¬ capacity s < streamLen (BitVec.ofNat 64 M.length) := by
    rw [streamLen, len, Config.headerSize]
    omega
  rw [execExtract_of_reads hc hr (by omega) hH (by rw [streamH, parseHeader_serializeHeader]) fits (len.symm ▸ hP),
    streamP]
  rfl

/-- When the pure decoder fails on the whole groups of CB, EXTRACT raises the same code (R151, R153). -/
theorem execExtract_of_extract_error {s : State} {B : List Byte} {e : Code} (hc : HasRoom s .cb s.bufLen.toNat)
    (hr : HasRoom s .mb (capacity s - 16)) (hB : memRead s .cb 0 (groupAddr (capacity s)) = .next B)
    (he : extract B = .error e) : execExtract s = .next (s.setStatus e.byte) := by
  have hl := readStream_length_of_memRead hB
  rcases extract_cases B with ⟨hs, hx⟩ | ⟨hs, e', hv, hx⟩ | ⟨-, -, hx⟩ <;> cases he.symm.trans hx
  · exact execExtract_of_short hc (hl ▸ hs)
  · obtain ⟨H, hH, streamH⟩ := memRead_groups_slice hB (j := 0) (k := 16) (by omega)
    refine execExtract_of_badHeader hc hr (by omega) hH ?_
    rw [streamH, List.drop_zero, parseHeader_take, ← hl]
    exact hv

/-- Settles O26: on the groups the host has set up EXTRACT is the pure decoder, one test a case. -/
theorem extractUnpacksTheMessage : Obligations.ExtractUnpacksTheMessage := by
  refine ⟨decode_encode .extract, fun s S hready hlen hS => ?_⟩
  obtain ⟨hc, hcb, hr⟩ := hready
  obtain ⟨B, hB⟩ := memRead_of_hasBytes hcb (Nat.zero_add _).le
  have hcap : S.length = capacity s := hlen
  have stream : readStream B = S := readStream_eq_of_streamAt (hcap ▸ hB) hS
  have fails {e : Code} (he : extract B = .error e) := execExtract_of_extract_error hc hr hB he
  intro m l
  split
  · rename_i hs
    exact fails (extract_of_short (stream ▸ hs))
  rename_i hs
  replace hs : 16 ≤ (readStream B).length := by rw [stream]; omega
  split
  · rename_i hm
    exact fails (extract_of_badHeader hs (stream ▸ streamVerdict_of_magic_ne hm))
  rename_i hm
  split
  · rename_i hl
    exact fails (extract_of_badHeader hs (stream ▸ streamVerdict_of_less (not_not.1 hm) hl))
  rename_i hl
  have found := extract_of_validHeader hs (stream ▸ streamVerdict_eq_none_iff.2 ⟨not_not.1 hm, hl⟩)
  rw [stream] at found
  have len := message_length hl
  have hexec := execExtract_of_extract_ok hc hr le_rfl hB found
  refine ⟨_, hexec, rfl, State.extracted_msgLen s len, fun j hj => ?message, fun a ha => ?rest,
    execExtract_frame hexec⟩
  case message =>
    rw [State.extracted_mb_read_of_lt s (len.symm ▸ hj), List.getElem?_take_of_lt hj, List.getElem?_drop]
  case rest => exact State.extracted_mb_read_of_ge s (len.le.trans ha)

/-- Settles O28: the tail carries no stream byte, and on the groups EXTRACT is the pure decoder. -/
theorem extractRefinesPureExtract : Obligations.ExtractRefinesPureExtract := by
  intro s B tail hB htail hc hr
  have hB' : memRead s .cb 0 (groupAddr (capacity s)) = .next B := hB
  have whole : 4 ∣ B.length := (memRead_length hB).symm ▸ Nat.dvd_mul_right 4 _
  have noTail : extract (B ++ tail) = extract B := by
    refine extract_congr ?_
    rw [readStream_append whole, readStream_of_short (B := tail) (by omega), List.append_nil]
  rw [noTail]
  cases hx : extract B with
  | error e => exact execExtract_of_extract_error hc hr hB' hx
  | ok M =>
    obtain ⟨hlt, hlen⟩ := length_of_extract hx
    rw [readStream_length_of_memRead hB'] at hlen
    refine ⟨_, execExtract_of_extract_ok hc hr le_rfl hB' hx, ?_, Nat.mod_eq_of_lt hlt, rfl⟩
    have room : inMemory s .mb 0 M.length = true := by
      simp only [HasRoom] at hr
      exact inMemory_iff.2 (.inr (by omega))
    exact (memRead_congr rfl rfl 0 _).trans
      (readGivesTheLastWrite s _ .mb 0 M (memWrite_of_inMemory room)).1

/-- Settles O30: the bytes EMBED wrote are read back, and on them the pure round trip decides. -/
theorem embedThenExtractRoundTrip : Obligations.EmbedThenExtractRoundTrip := by
  intro s t m l h hok hroom
  rcases execEmbed_next h with ⟨-, rfl⟩ | ⟨hfit, B, M, B', hB, hM, -, hembed, hl, rfl⟩
  · cases hok
  obtain ⟨hc, -⟩ := execEmbed_room h hfit
  have len := memRead_length hM
  have back := memRead_overwritten (y := []) (by simpa using hB) (hl.trans (memRead_length hB).symm)
  rw [List.append_nil] at back
  have found := extract_of_embed (len ▸ s.msgLen.isLt) hembed
  refine ⟨_, execExtract_of_extract_ok (n := streamLen s.msgLen) hc hroom (Nat.not_lt.1 hfit)
    ((memRead_congr rfl rfl 0 _).trans back) found, rfl, State.extracted_msgLen _ len, rfl, fun j hj => ?_⟩
  rw [State.extracted_mb_read_of_lt _ (len.symm ▸ hj), memRead_zero_get hM hj]
  rfl

/-- Settles O35: EXTRACT keeps what it reads, so it ends the second time as the first. -/
theorem extractIsIdempotent : Obligations.ExtractIsIdempotent := by
  intro s t h
  obtain ⟨hc, hr⟩ := execExtract_room h
  have hcb : t.cb = s.cb := by rw [execExtract_frame h]
  refine ⟨hcb, ?_⟩
  rcases execExtract_cases h with ⟨hs, rfl⟩ | ⟨hs, H, hH, ⟨e, hv, rfl⟩ | ⟨B, l, hp, hl, hB, rfl⟩⟩
  · exact execExtract_of_short hc hs
  · exact execExtract_of_badHeader hc hr hs ((memRead_congr rfl rfl _ _).trans hH) hv
  · have again := execExtract_of_reads
      (s := ((s.setMem .mb (s.mb.writeBytes 0 (readStream B))).setMsgLen l).setStatus 0x01) hc hr hs
      ((memRead_congr rfl rfl _ _).trans hH) hp hl ((memRead_congr rfl rfl _ _).trans hB)
    rw [State.setStatus_mb, State.setMsgLen_mb, State.setMem_mb_mb, Mem.writeBytes_idem] at again
    exact again

/-! ### EMBED and EXTRACT from the lower operations (R159) -/

/-- What HSER leaves in HDR, byte by byte (R142). -/
theorem execHser_serializes (s : State) :
    ∃ v, execHser s = .next { s with hdr := v, status := 0x01 } ∧ hdrBytes v = serializeHeader s.msgLen :=
  ⟨_, execHser_eq_append s, hdrBytes_length_over_magic s.msgLen⟩

/-- A length below 2^64 that the host writes to STR_LEN is kept whole (R23). -/
theorem regAssign_strLen_toNat (s : State) {n : Nat} (hn : n < 2 ^ 64) :
    (regAssign s (BitVec.ofNat 128 n) .strLen).strLen.toNat = n := by
  rw [regAssign, State.setStrLen_strLen, BitVec.toNat_setWidth, BitVec.toNat_ofNat,
    Nat.mod_eq_of_lt (by omega : n < 2 ^ 128), Nat.mod_eq_of_lt hn]

/-- SWR of a stream that SB holds, over groups that CB holds (R133). -/
theorem execSwr_of_stream {s : State} {S B B' : List Byte} (hc : HasRoom s .cb s.bufLen.toNat)
    (hstr : s.strLen.toNat = S.length) (hfit : S.length ≤ capacity s) (hS : memRead s .sb 0 S.length = .next S)
    (hB : memRead s .cb 0 (groupAddr S.length) = .next B) (hw : writeStream B S = some B') :
    execSwr s = .next ((s.setMem .cb (s.cb.writeBytes 0 B')).setStatus 0x01) := by
  rw [← hstr] at hfit hS hB
  obtain ⟨B'', hw', -, hswr⟩ := execSwr_of_reads (Nat.not_lt.2 (groupAddr_le_bufLen hfit)) hc hS hB
  cases hw.symm.trans hw'
  exact hswr

@[simp] theorem memRead_regAssign (s : State) (v : HdrWord) (r : Reg) (sp : Space) (a n : Nat) :
    memRead (regAssign s v r) sp a n = memRead s sp a n := memRead_congr (by simp) (by simp) a n

/-- After a host copy of a stream into SB and of its length into STR_LEN, SWR writes that stream over CB's groups. -/
theorem execSwr_of_copy {s s' : State} {S B B' : List Byte} (hc : HasRoom s .cb s.bufLen.toNat)
    (hfit : S.length ≤ capacity s) (hB : memRead s .cb 0 (groupAddr S.length) = .next B)
    (hw : writeStream B S = some B') (hcopy : memWrite s .sb 0 S = .next s') :
    ∃ u, execSwr (regAssign s' (BitVec.ofNat 128 S.length) .strLen) = .next u ∧ u.status = 0x01#8 ∧
      u.cb = s.cb.writeBytes 0 B' := by
  obtain ⟨hS, -⟩ := readGivesTheLastWrite s s' .sb 0 S hcopy
  obtain ⟨-, rfl⟩ := memWrite_eq_next_iff.1 hcopy
  have hstr := regAssign_strLen_toNat (s.setMem .sb ((s.mem .sb).writeBytes 0 S)) (hfit.trans_lt (capacity_lt s))
  exact ⟨_, execSwr_of_stream hc hstr hfit ((memRead_regAssign ..).trans hS)
    ((memRead_regAssign ..).trans ((memRead_congr rfl rfl 0 _).trans hB)) hw, rfl, rfl⟩

/-- Settles O38: SWR writes the stream that EMBED writes, over the same groups. -/
theorem embedFromLowerOperations : Obligations.EmbedFromLowerOperations := by
  intro s t M h hok hM hroom
  rcases execEmbed_next h with ⟨-, rfl⟩ | ⟨hfit, B, M', B', hB, hM', hw, -, -, rfl⟩
  · cases hok
  cases hM.symm.trans hM'
  obtain ⟨hc, -⟩ := execEmbed_room h hfit
  obtain ⟨v, hhser, hv⟩ := execHser_serializes s
  have len : (hdrBytes v ++ M).length = 16 + s.msgLen.toNat := by
    rw [List.length_append, hdrBytes_length, memRead_length hM]
  rw [← hv] at hw
  have hcopy := memWrite_of_hasRoom (s := { s with hdr := v, status := 0x01 }) (sp := .sb) (len.trans_le hroom)
  obtain ⟨u, hswr, hstatus, hcb⟩ := execSwr_of_copy (s := { s with hdr := v, status := 0x01 }) hc
    (len.trans_le (Nat.not_lt.1 hfit)) (len ▸ (memRead_congr rfl rfl 0 _).trans hB) hw hcopy
  exact ⟨_, _, u, hhser, hcopy, len ▸ hswr, hstatus, hcb⟩

/-- Sixteen bytes copied into HDR are HDR's bytes (10_state R21). -/
theorem hdrBytes_hdrOfBytes {h : List Byte} (hl : h.length = 16) : hdrBytes (hdrOfBytes h) = h := by
  have whole : natOfBytes h % 2 ^ 128 = natOfBytes h := Nat.mod_eq_of_lt (by simpa [hl] using natOfBytes_lt h)
  rw [hdrBytes_eq_bytesOfNat, hdrOfBytes, BitVec.toNat_ofNat, whole, ← hl, bytesOfNat_natOfBytes]

/-- After a host copy of sixteen bytes into HDR, HPAR parses them (R143). -/
theorem execHpar_of_copy (s : State) {h : List Byte} (hl : h.length = 16) :
    ∃ u, execHpar (regAssign s (hdrOfBytes h) .hdr) = .next u ∧ (u.hmagic, u.msgLen) = parseHeader h := by
  have hpar := execHpar_eq (regAssign s (hdrOfBytes h) .hdr)
  rw [regAssign, State.setHdr_hdr, hdrBytes_hdrOfBytes hl] at hpar
  exact ⟨_, hpar, rfl⟩

/-- The first sixteen bytes of the stream that SRD leaves in SB (R132). -/
theorem memRead_header_of_execSrd {s t : State} {B : List Byte} (h : execSrd s = .next t)
    (hB : memRead s .cb 0 (groupAddr (capacity s)) = .next B) (hlong : 16 ≤ (readStream B).length) :
    memRead t .sb 0 16 = .next ((readStream B).take 16) := by
  obtain ⟨B', hB', hin, rfl⟩ := execSrd_next h
  cases hB.symm.trans hB'
  obtain ⟨stored, -⟩ := readGivesTheLastWrite s _ .sb 0 _ (memWrite_of_inMemory hin)
  obtain ⟨r, hr⟩ := Nat.exists_eq_add_of_le hlong
  rw [hr] at stored
  obtain ⟨H, T, hH, -, hS⟩ := memRead_add_eq_next_iff.1 stored
  have header : (readStream B).take 16 = H := by rw [hS, List.take_left' (memRead_length hH)]
  rw [header, ← hH]
  exact memRead_congr rfl rfl 0 _

theorem execSrd_strLen {s t : State} (h : execSrd s = .next t) : t.strLen.toNat = capacity s := by
  obtain ⟨B, -, -, rfl⟩ := execSrd_next h
  exact Nat.mod_eq_of_lt (capacity_lt s)

/-- Settles O39: HPAR parses the header that the pure decoder tests, one way `Extract` ends a case. -/
theorem extractHeaderFromLowerOperations : Obligations.ExtractHeaderFromLowerOperations := by
  intro s s₁ v hsrd hlong hext
  obtain ⟨B, hB, -, -⟩ := execSrd_next hsrd
  obtain ⟨hc, hr⟩ := execExtract_room hext
  have hstr : s₁.strLen.toNat = (readStream B).length :=
    (execSrd_strLen hsrd).trans (readStream_length_of_memRead hB).symm
  rw [hstr] at hlong ⊢
  obtain ⟨u, hhpar, hu⟩ := execHpar_of_copy s₁ (h := (readStream B).take 16) (by simpa using hlong)
  rw [parseHeader_take, Prod.mk.injEq] at hu
  obtain ⟨hm, hl⟩ := hu
  refine ⟨_, u, memRead_header_of_execSrd hsrd hB hlong, hhpar, ?_⟩
  have tests : streamVerdict (readStream B) = headerVerdict (readStream B).length u.hmagic u.msgLen := by
    rw [hm, hl, streamVerdict]
  rcases extract_cases B with ⟨hs, -⟩ | ⟨-, e, hv, hx⟩ | ⟨-, hv, hx⟩
  · omega
  · cases hext.symm.trans (execExtract_of_extract_error hc hr hB hx)
    rcases headerVerdict_eq_some (tests ▸ hv) with ⟨hne, rfl⟩ | ⟨heq, hless, rfl⟩
    · simp [hne]
    · have less : (readStream B).length < 16 + u.msgLen.toNat := hless
      simp [heq, less]
  · cases hext.symm.trans (execExtract_of_extract_ok hc hr le_rfl hB hx)
    obtain ⟨heq, hfit⟩ := headerVerdict_eq_none.1 (tests ▸ hv)
    have fits : 16 + u.msgLen.toNat ≤ (readStream B).length := Nat.not_lt.1 hfit
    rw [← hl, State.extracted_msgLen s (message_length hfit)]
    simp [State.extracted, heq, fits]

end Sys2Proof.Machine

/-! ## 45_common_semantics: the length tests (R161) -/

namespace Sys2Proof.Machine

/-! ### The quantities of the tests in 64 bits -/

/-- `floor(N/4)` as a 64-bit word is the capacity (R161). -/
theorem bufLen_shiftRight_toNat (s : State) : (s.bufLen >>> 2).toNat = capacity s := by
  rw [BitVec.toNat_ushiftRight, Nat.shiftRight_eq_div_pow]
  rfl

/-- From 16 on `a - 16` does not wrap in 64 bits, so it compares with the length as the naturals do (R161). -/
theorem sub_headerSize_lt_iff {a l : Word} (ha : 16 ≤ a.toNat) : a - 16#64 < l ↔ a.toNat < streamLen l := by
  have hsub : (a - 16#64).toNat = a.toNat - 16 := BitVec.toNat_sub_of_le (BitVec.le_def.2 ha)
  rw [BitVec.lt_def, hsub, streamLen, Config.headerSize]
  omega

/-- The capacity is too short when it has no room for the header, or none for the message past it (R161). -/
theorem lt_streamLen_iff (a l : Word) : a.toNat < streamLen l ↔ a < 16#64 ∨ a - 16#64 < l := by
  by_cases ha : a < 16#64
  · have short : a.toNat < 16 := BitVec.lt_def.1 ha
    refine iff_of_true ?_ (.inl ha)
    rw [streamLen, Config.headerSize]
    omega
  · have long : 16 ≤ a.toNat := Nat.not_lt.1 fun h => ha (BitVec.lt_def.2 h)
    rw [← sub_headerSize_lt_iff long, or_iff_right ha]

/-! ### What each operation's code says -/

theorem execEmbed_eq_capacityError_iff (s : State) :
    execEmbed s = .next (s.setStatus 0x02) ↔ capacity s < streamLen s.msgLen := by
  refine ⟨fun h => ?_, execEmbed_of_bad⟩
  rcases execEmbed_next h with ⟨hbad, -⟩ | ⟨-, B, M, B', -, -, -, -, -, ht⟩
  · exact hbad
  · cases congrArg State.status ht

theorem execSwr_eq_badOperand_iff (s : State) :
    execSwr s = .next (s.setStatus 0x06) ↔ s.bufLen.toNat < groupAddr s.strLen.toNat := by
  refine ⟨fun h => ?_, execSwr_of_bad⟩
  rcases execSwr_next h with ⟨hbad, -⟩ | ⟨-, S, B, B', -, -, -, -, ht⟩
  · exact hbad
  · cases congrArg State.status ht

/-- The buffer is too short for the stream's groups exactly when its groups are fewer. -/
theorem bufLen_lt_groupAddr_iff {s : State} {n : Nat} : s.bufLen.toNat < groupAddr n ↔ capacity s < n := by
  rw [capacity, groupAddr, Nat.div_lt_iff_lt_mul (by decide), Nat.mul_comm]

theorem extract_eq_formatError_iff {B : List Byte} (hs : 16 ≤ (readStream B).length)
    (hm : ule64 ((readStream B).take 8) = Config.magic) :
    extract B = .error .formatError ↔
      (readStream B).length < streamLen (ule64 (((readStream B).drop 8).take 8)) := by
  refine ⟨fun h => ?_, fun hl => extract_of_badHeader hs (streamVerdict_of_less hm hl)⟩
  by_contra hl
  cases h.symm.trans (extract_of_validHeader hs (streamVerdict_eq_none_iff.2 ⟨hm, hl⟩))

/-- On groups that can be read EXTRACT ends in FORMAT_ERROR exactly when the pure decoder does. -/
theorem execExtract_eq_formatError_iff {s : State} {B : List Byte} (hc : HasRoom s .cb s.bufLen.toNat)
    (hr : HasRoom s .mb (capacity s - 16)) (hB : memRead s .cb 0 (groupAddr (capacity s)) = .next B) :
    execExtract s = .next (s.setStatus 0x04) ↔ extract B = .error .formatError := by
  refine ⟨fun h => ?_, execExtract_of_extract_error hc hr hB⟩
  cases hx : extract B with
  | ok M =>
    have ended := Host.Outcome.next.inj (h.symm.trans (execExtract_of_extract_ok hc hr le_rfl hB hx))
    cases congrArg State.status ended
  | error e =>
    have ended := Host.Outcome.next.inj (h.symm.trans (execExtract_of_extract_error hc hr hB hx))
    have code : Code.formatError.byte = e.byte := congrArg State.status ended
    rw [Code.byte_injective code]

/-- Settles O37: each operation's code says which length test it failed, and the tests over naturals are those in
64 bits. -/
theorem lengthTestsInSixtyFourBits : Obligations.LengthTestsInSixtyFourBits := by
  refine ⟨fun s => ?embed, fun B hB hs hm => ?decoder, fun s S hready hlen hS ha hm => ?extract, fun s => ?swr⟩
  case embed =>
    rw [← lt_streamLen_iff, bufLen_shiftRight_toNat]
    exact execEmbed_eq_capacityError_iff s
  case decoder =>
    have len : (BitVec.ofNat 64 (readStream B).length).toNat = (readStream B).length :=
      Nat.mod_eq_of_lt (by rw [readStream_length]; omega)
    rw [sub_headerSize_lt_iff (len.symm ▸ hs), len]
    exact extract_eq_formatError_iff hs hm
  case extract =>
    obtain ⟨hc, hcb, hr⟩ := hready
    obtain ⟨B, hB⟩ := memRead_of_hasBytes hcb (Nat.zero_add _).le
    have hcap : S.length = capacity s := hlen
    obtain rfl : readStream B = S := readStream_eq_of_streamAt (hcap ▸ hB) hS
    have long : 16 ≤ (s.bufLen >>> 2).toNat := BitVec.le_def.1 (BitVec.not_lt.1 ha)
    rw [sub_headerSize_lt_iff long, bufLen_shiftRight_toNat, ← hcap]
    exact (execExtract_eq_formatError_iff hc hr hB).trans
      (extract_eq_formatError_iff (by rwa [hcap, ← bufLen_shiftRight_toNat]) hm)
  case swr =>
    rw [BitVec.lt_def, bufLen_shiftRight_toNat, ← bufLen_lt_groupAddr_iff]
    exact execSwr_eq_badOperand_iff s

end Sys2Proof.Machine

/-! ## 60_exceptions: the outcome of an operation (R170 to R173) and IDLE (R171) -/

namespace Sys2Proof.Machine

/-! ### How an operation ends -/

/-- The failing codes of each operation, each with the test that raises it where the operation's registers decide it
(R112, R113, R133, R152); the two of EXTRACT are decided by the bytes of the channel buffer (R153). -/
inductive MayFail (s : State) : Instr → Code → Prop
  | fext2 : MayFail s (.fext2 7) .badOperand
  | fins2 : MayFail s (.fins2 7) .badOperand
  | swr (h : s.bufLen.toNat < groupAddr s.strLen.toNat) : MayFail s .swr .badOperand
  | embed (h : capacity s < streamLen s.msgLen) : MayFail s .embed .capacityError
  | notEncoded : MayFail s .extract .notEncoded
  | formatError : MayFail s .extract .formatError

/-- An operation that answers ends in OK, or fails with STATUS alone changed (R170). -/
theorem exec_outcome {i : Instr} {s t : State} (h : exec i s = .next t) :
    t.status = Code.ok.byte ∨ ∃ c, MayFail s i c ∧ t = s.setStatus c.byte := by
  cases i with
  | fext2 ofs =>
    by_cases hofs : ofs = 7
    · subst hofs
      cases h.symm.trans (execFext2_of_illegal (by decide) s)
      exact .inr ⟨_, .fext2, rfl⟩
    · cases h.symm.trans (execFext2_of_legal (ofsLegal_of_ne hofs) s)
      exact .inl rfl
  | fins2 ofs =>
    by_cases hofs : ofs = 7
    · subst hofs
      cases h.symm.trans (execFins2_of_illegal (by decide) s)
      exact .inr ⟨_, .fins2, rfl⟩
    · cases h.symm.trans (execFins2_of_legal (ofsLegal_of_ne hofs) s)
      exact .inl rfl
  | gdec => exact .inl (by rw [execGdec_next h]; rfl)
  | genc => exact .inl (by rw [execGenc_next h]; rfl)
  | srd =>
    obtain ⟨B, -, -, rfl⟩ := execSrd_next h
    exact .inl rfl
  | swr =>
    rcases execSwr_next h with ⟨hbad, rfl⟩ | ⟨-, S, B, B', -, -, -, -, rfl⟩
    · exact .inr ⟨_, .swr hbad, rfl⟩
    · exact .inl rfl
  | hser => exact .inl (by rw [execHser_next h, State.setStatus_status]; rfl)
  | hpar => exact .inl (by rw [execHpar_next h, State.setStatus_status]; rfl)
  | embed =>
    rcases execEmbed_next h with ⟨hbad, rfl⟩ | ⟨-, B, M, B', -, -, -, -, -, rfl⟩
    · exact .inr ⟨_, .embed hbad, rfl⟩
    · exact .inl rfl
  | extract =>
    rcases execExtract_next h with (rfl | rfl) | ⟨-, H, B, l, -, -, -, -, -, -, rfl⟩
    · exact .inr ⟨_, .notEncoded, rfl⟩
    · exact .inr ⟨_, .formatError, rfl⟩
    · exact .inl rfl

/-- A code other than OK in STATUS is one the operation may fail with. -/
theorem mayFail_of_status {i : Instr} {s t : State} {c : Code} (h : exec i s = .next t) (hs : t.status = c.byte)
    (hc : c ≠ .ok) : MayFail s i c := by
  rcases exec_outcome h with hok | ⟨d, hfail, rfl⟩
  · exact absurd (Code.byte_injective (hs.symm.trans hok)) hc
  · exact Code.byte_injective hs ▸ hfail

/-- Settles O45, by `exec_status` and `exec_outcome`. -/
theorem failureChangesStatusOnly : Obligations.FailureChangesStatusOnly := by
  intro i s t h
  obtain ⟨hlo, hhi⟩ := exec_status h
  refine ⟨hlo, hhi, fun hne => ?_⟩
  rcases exec_outcome h with hok | ⟨c, -, rfl⟩
  · exact absurd hok hne
  · rfl

/-- Settles O46: each clause is the row of `MayFail` with its code. -/
theorem outcomeCodesByOperation : Obligations.OutcomeCodesByOperation := by
  intro i s t h
  refine ⟨fun hs => ?capacityError, fun hs => ?notEncoded, fun hs => ?formatError, fun hs => ?illegalOp,
    fun hs => ?badOperand⟩
  case capacityError =>
    cases mayFail_of_status (c := .capacityError) h hs (by decide) with
    | embed hbad => exact ⟨rfl, hbad⟩
  case notEncoded =>
    cases mayFail_of_status (c := .notEncoded) h hs (by decide)
    rfl
  case formatError =>
    cases mayFail_of_status (c := .formatError) h hs (by decide)
    rfl
  case illegalOp => cases mayFail_of_status (c := .illegalOp) h hs (by decide)
  case badOperand =>
    cases mayFail_of_status (c := .badOperand) h hs (by decide) with
    | fext2 => exact .inl rfl
    | fins2 => exact .inr (.inl rfl)
    | swr hbad => exact .inr (.inr ⟨rfl, hbad⟩)

/-! ### IDLE -/

/-- A command never ends in IDLE: its operation leaves a code from 1 on, and a byte that is none leaves ILLEGAL_OP. -/
theorem runCommand_status_ne_idle {s t : State} (h : runCommand s = .next t) : t.status ≠ 0x00#8 := by
  intro hidle
  rcases runCommand_cases s with ⟨i, -, hrun⟩ | ⟨e, -, hrun⟩ <;> rw [hrun] at h
  · obtain ⟨hlo, -⟩ := exec_status h
    simp [hidle] at hlo
  · cases h
    cases hidle

theorem memWrite_status {s t : State} {sp : Space} {a : Nat} {bs : List Byte} (h : memWrite s sp a bs = .next t) :
    t.status = s.status := by
  obtain ⟨-, rfl⟩ := memWrite_eq_next_iff.1 h
  simp

/-- Settles O58, by the kinds of step: all but a command and a reset leave STATUS as it was. -/
theorem idleOnlyByReset : Obligations.IdleOnlyByReset := by
  intro s t h hidle
  rcases step_cases h with ⟨-, rfl⟩ | ⟨v, rest, -, hcmd⟩ | ⟨r, v, rest, -, -, rfl⟩ | ⟨r, rest, -, -, rfl⟩ |
    ⟨sp, a, bs, rest, -, hw⟩ | ⟨sp, a, n, bs, rest, -, -, rfl⟩ | ⟨rest, hreset, -⟩
  · exact .inl hidle
  · exact absurd hidle (runCommand_status_ne_idle hcmd)
  · exact .inl (by simpa using hidle)
  · exact .inl hidle
  · exact .inl ((memWrite_status hw).symm.trans hidle)
  · exact .inl hidle
  · exact .inr ⟨rest, hreset⟩

end Sys2Proof.Machine

/-! ## 70_reset_and_hazards: an operation whose host meets its duties answers (R205, R206, R220) -/

namespace Sys2Proof.Machine

/-! ### The field operations answer at every offset -/

theorem exists_next_execFext2 (ofs : BitVec 3) (s : State) : ∃ t, execFext2 ofs s = .next t := by
  by_cases hl : OfsLegal ofs
  · exact ⟨_, execFext2_of_legal hl s⟩
  · exact ⟨_, execFext2_of_illegal hl s⟩

theorem exists_next_execFins2 (ofs : BitVec 3) (s : State) : ∃ t, execFins2 ofs s = .next t := by
  by_cases hl : OfsLegal ofs
  · exact ⟨_, execFins2_of_legal hl s⟩
  · exact ⟨_, execFins2_of_illegal hl s⟩

/-! ### The memory operations answer when their host is ready -/

theorem exists_next_execSrd {s : State} (hready : HostReady .srd s) : ∃ t, execSrd s = .next t := by
  obtain ⟨t, hexec, -⟩ := srdReadsTheWholeStream.2 s hready
  exact ⟨t, hexec⟩

/-- SWR's own failing test needs nothing of the host (R212); past it the host's duties are SWR's (R133). -/
theorem exists_next_execSwr {s : State} (hready : HostReady .swr s) : ∃ t, execSwr s = .next t := by
  obtain ⟨-, ofFit⟩ := swrWritesTheStream.2 s
  by_cases hbad : s.bufLen.toNat < groupAddr s.strLen.toNat
  · exact ⟨_, execSwr_of_bad hbad⟩
  · obtain ⟨t, hexec, -⟩ := ofFit (Nat.not_lt.1 hbad) hready
    exact ⟨t, hexec⟩

/-- EMBED's own failing test needs nothing of the host (R212); past it the host's duties are EMBED's (R152). -/
theorem exists_next_execEmbed {s : State} (hready : HostReady .embed s) : ∃ t, execEmbed s = .next t := by
  obtain ⟨-, ofFit⟩ := embedPacksTheMessage.2 s
  by_cases hbad : capacity s < streamLen s.msgLen
  · exact ⟨_, execEmbed_of_bad hbad⟩
  · obtain ⟨t, hexec, -⟩ := ofFit (Nat.not_lt.1 hbad) hready
    exact ⟨t, hexec⟩

/-- On the groups the host has set up EXTRACT ends as the pure decoder does, which always answers (R151, R153). -/
theorem exists_next_execExtract {s : State} (hready : HostReady .extract s) : ∃ t, execExtract s = .next t := by
  obtain ⟨hc, hcb, hr⟩ := hready
  obtain ⟨B, hB⟩ := memRead_of_hasBytes hcb (Nat.zero_add _).le
  cases hx : extract B with
  | error e => exact ⟨_, execExtract_of_extract_error hc hr hB hx⟩
  | ok M => exact ⟨_, execExtract_of_extract_ok hc hr le_rfl hB hx⟩

/-! ### Every operation -/

/-- Settles O40, one lemma an operation: the six register operations answer in every state, the four memory operations
where the host's duties are met. -/
theorem readyOperationsComplete : Obligations.ReadyOperationsComplete := by
  intro i s hready
  cases i with
  | fext2 ofs => exact exists_next_execFext2 ofs s
  | fins2 ofs => exact exists_next_execFins2 ofs s
  | gdec => exact ⟨_, execGdec_eq s⟩
  | genc => exact ⟨_, execGenc_eq s⟩
  | srd => exact exists_next_execSrd hready
  | swr => exact exists_next_execSwr hready
  | hser => exact ⟨_, execHser_eq s⟩
  | hpar => exact ⟨_, execHpar_eq s⟩
  | embed => exact exists_next_execEmbed hready
  | extract => exact exists_next_execExtract hready

end Sys2Proof.Machine
